-- ==== Sys2Proof/Word.lean ====
section
/-! DEFINITION. The widths of the AoC17 interpreter: registers of 64 bits and digits of 3 (00_scope R9, R10). -/

namespace Sys2Proof

/-- A register value: a signed integer held as its 64-bit two's-complement pattern (00_scope R10). -/
abbrev Word := BitVec 64

/-- A digit: one 3-bit value, 0 to 7 (00_scope R9, R10). -/
abbrev Digit := BitVec 3

end Sys2Proof
end

