-- ==== Sys2Proof/Syntax.lean ====
section
/-! DEFINITION. The instructions, their operand forms, and the reasons a pair of digits is no instruction. -/

namespace Sys2Proof

/-- The three general registers (10_state R20). -/
inductive Reg where
  | a
  | b
  | c
  deriving DecidableEq, Repr

/-- A combo operand (30_encoding R76): digits 0 to 3 stand for themselves, 4, 5 and 6 for a register, and 7 is
reserved (30_encoding R77). -/
inductive Combo where
  | lit (v : BitVec 2)
  | reg (r : Reg)
  | reserved
  deriving DecidableEq, Repr

/-- The eight instructions (30_encoding R73) with their operand classes (30_encoding R74). -/
inductive Instr where
  | adv (src : Combo)
  | bxl (lit : Digit)
  | bst (src : Combo)
  | jnz (target : Digit)
  | bxc (ignored : Digit)
  | out (src : Combo)
  | bdv (src : Combo)
  | cdv (src : Combo)
  deriving DecidableEq, Repr

/-- Why two fetched digits are no instruction (30_encoding R80); the step that fetched them raises the fault of the
same name (60_exceptions R160). -/
inductive DecodeError where
  | invalidOpcodeDigit
  | invalidOperandDigit
  deriving DecidableEq, Repr

end Sys2Proof
end

