-- ==== Sys2Proof/Decode.lean ====
section
/-! DEFINITION. Decoding two program digits (30_encoding R70 to R80), the encoder, and the packed form of the table. -/

namespace Sys2Proof

/-- A program element as a digit, when it is one (30_encoding R80). -/
def digitOf (v : Int) : Option Digit :=
  if 0 ≤ v ∧ v ≤ 7 then some (BitVec.ofNat 3 v.toNat) else none

/-- The combo operand a digit stands for (30_encoding R76, R77). -/
def comboOf (d : Digit) : Combo :=
  match d.toFin with
  | 0 => .lit 0#2
  | 1 => .lit 1#2
  | 2 => .lit 2#2
  | 3 => .lit 3#2
  | 4 => .reg .a
  | 5 => .reg .b
  | 6 => .reg .c
  | 7 => .reserved

/-- The instruction an opcode digit and an operand digit stand for: the dispatch of 40_execution_cycle R103 by the
numbering of 30_encoding R73 (opcodes 1, 2, 4, 6 and 7 by table order, assumption log 9). -/
def instrOf (op d : Digit) : Instr :=
  match op.toFin with
  | 0 => .adv (comboOf d)
  | 1 => .bxl d
  | 2 => .bst (comboOf d)
  | 3 => .jnz d
  | 4 => .bxc d
  | 5 => .out (comboOf d)
  | 6 => .bdv (comboOf d)
  | 7 => .cdv (comboOf d)

/-- Decoding, total on any two integers: the opcode digit is checked first (60_exceptions R166). -/
def decode (op d : Int) : Except DecodeError Instr :=
  match digitOf op with
  | none => .error .invalidOpcodeDigit
  | some o =>
    match digitOf d with
    | none => .error .invalidOperandDigit
    | some e => .ok (instrOf o e)

/-- The digit of a combo operand (30_encoding R76, R77). -/
def comboDigit : Combo → Digit
  | .lit v => v.setWidth 3
  | .reg .a => 4#3
  | .reg .b => 5#3
  | .reg .c => 6#3
  | .reserved => 7#3

/-- The opcode number (30_encoding R73). -/
def opcodeDigit : Instr → Digit
  | .adv _ => 0#3
  | .bxl _ => 1#3
  | .bst _ => 2#3
  | .jnz _ => 3#3
  | .bxc _ => 4#3
  | .out _ => 5#3
  | .bdv _ => 6#3
  | .cdv _ => 7#3

/-- The operand digit (30_encoding R71, R74). -/
def operandDigit : Instr → Digit
  | .adv src => comboDigit src
  | .bxl lit => lit
  | .bst src => comboDigit src
  | .jnz target => target
  | .bxc ignored => ignored
  | .out src => comboDigit src
  | .bdv src => comboDigit src
  | .cdv src => comboDigit src

/-- The two program digits of an instruction, opcode first (20_memory R52, 30_encoding R70). -/
def encode (i : Instr) : Int × Int :=
  (((opcodeDigit i).toNat : Int), ((operandDigit i).toNat : Int))

/-- A program from its instructions: their digits in order (30_encoding R83). -/
def assemble : List Instr → List Int
  | [] => []
  | i :: is => (encode i).1 :: (encode i).2 :: assemble is

/-- A listing: the pairs at even indices (30_encoding R85). A last digit with no partner is not shown. -/
def disassemble : List Int → List (Except DecodeError Instr)
  | op :: d :: rest => decode op d :: disassemble rest
  | _ => []

/-- The packed form `opcode * 8 + operand` (30_encoding R72). -/
def packed (i : Instr) : BitVec 6 := opcodeDigit i ++ operandDigit i

/-- The instruction the decoder reads from the packed value `w` of the opcode table: bits 5..3 are the opcode digit
and bits 2..0 the operand digit (30_encoding R72). What stands above bit 5 makes the opcode digit greater than 7, and
the decoder refuses it (assumption log 11). -/
def decodeTableWord (nbits w : Nat) : Option Instr :=
  match decode (((w % 2 ^ nbits) / 8 : Nat) : Int) (((w % 2 ^ nbits) % 8 : Nat) : Int) with
  | .ok i => some i
  | .error _ => none

end Sys2Proof
end

