-- ==== Sys2Proof/Config.lean ====
section
/-! DEFINITION. What an implementation fixes (00_scope R9) and the free values (assumption log 2, 4 and 6). -/

namespace Sys2Proof

/-- `NEG_DIV`: what a shift instruction does with a negative dividend (00_scope R9, 41_shift_divide R133). -/
inductive NegDiv where
  | floor
  | trunc
  | fault
  deriving DecidableEq, Repr

/-- `ODD_IP`: what a step at an odd instruction pointer does (00_scope R9, 10_state R27). -/
inductive OddIp where
  | execute
  | fault
  deriving DecidableEq, Repr

/-- The open parameters of 00_scope R9. `none` is "unbounded". State carries them, so that a statement about every
state quantifies over them; no step writes them (assumption log 2). -/
structure Params where
  negDiv : NegDiv
  oddIp : OddIp
  outCap : Option Nat
  progMax : Option Nat
  deriving DecidableEq, Repr

/-- The spec's own defaults (00_scope R9). -/
def Params.specDefault : Params :=
  { negDiv := .floor, oddIp := .execute, outCap := none, progMax := none }

/-- A register after a failed `Load`: "no value" (40_execution_cycle R110), so a free value (DESIGN CHOICE, safe,
assumption log 4). -/
opaque Config.noValueWord : Nat → Word

/-- The instruction pointer after a failed `Load`: a free value (DESIGN CHOICE, safe, assumption log 4). -/
opaque Config.noValueIp : Nat → Nat

/-- The program after a failed `Load`: a free value (DESIGN CHOICE, safe, assumption log 4). -/
opaque Config.noValueProg : Nat → List Int

/-- The output buffer after a failed `Load`: a free value (DESIGN CHOICE, safe, assumption log 4). -/
opaque Config.noValueOut : Nat → List Digit

/-- The MATCH bit of the STATUS word in a state in which MATCH has no value: a free bit (DESIGN CHOICE, safe,
assumption log 6). -/
opaque Config.noValueMatch : Nat → Bool

end Sys2Proof
end

