-- ==== Sys2Proof/Machine/State.lean ====
section
/-! DEFINITION. The block's state (10_state R38), its reasons to stop, and the state at power-on (10_state R39). -/

namespace Sys2Proof.Machine

/-- The STATE field (10_state R31). -/
inductive RunState where
  | unloaded
  | ready
  | running
  | haltedEnd
  | haltedOutput
  | faulted
  deriving DecidableEq, Repr

/-- The CAUSE field: no fault, or one of the eleven faults of 60_exceptions R160. -/
inductive Cause where
  | none
  | invalidProgramLength
  | invalidOpcodeDigit
  | invalidOperandDigit
  | reservedComboOperand
  | fetchOutOfBounds
  | operandFetchOutOfBounds
  | negativeShiftAmount
  | negativeDividend
  | oddIp
  | outputOverflow
  | notLoaded
  deriving DecidableEq, Repr

/-- What the host may read (10_state R36). -/
inductive HostField where
  | reg (r : Reg)
  | ip
  | progLen
  | prog (i : Nat)
  | outLen
  | out (i : Nat)
  | status
  deriving DecidableEq, Repr

/-- The host's interactions with the block (40_execution_cycle R121). -/
inductive Command where
  | load (prog : List Int) (a b c : Word)
  | step
  | run (haltOnFirstOutput : Bool)
  | matchesProgram
  | read (field : HostField)
  deriving DecidableEq, Repr

/-- The state. The first nine fields are the spec's (10_state R38). `params` is what the implementation fixes
(assumption log 2), `commands` are the host commands still to be issued, the next one first (assumption log 7), and
`freeDraws` makes each free value a fresh one (assumption log 4). -/
structure State where
  a : Word
  b : Word
  c : Word
  ip : Nat
  prog : List Int
  out : List Digit
  runState : RunState
  cause : Cause
  hofo : Bool
  params : Params
  commands : List Command
  freeDraws : Nat
  deriving DecidableEq, Repr

/-- The machine at power-on (10_state R39, 70_reset_and_hazards R190), with the parameters at the spec's defaults
(00_scope R9). The spec gives A, B, C and ip no value here; the zeros are a DESIGN CHOICE (unsafe, assumption log 3),
and no host read can see them (assumption log 5). -/
def State.reset : State :=
  { a := 0#64, b := 0#64, c := 0#64, ip := 0, prog := [], out := [],
    runState := .unloaded, cause := .none, hofo := false,
    params := Params.specDefault, commands := [], freeDraws := 0 }

/-- Why the model stops with a fault. The spec's own faults are no stops: taking one is a next state with STATE
FAULTED (60_exceptions R165). -/
inductive Fault where
  /-- Raised by a host read, and by `MatchesProgram`, of what holds no value: 10_state R39 "a model must give a read
  no value (fault or refuse), not zero"; 93_implementation_defined I14 "refuse: no value"; after a failed `Load`
  60_exceptions R164 "nothing else is readable". No instruction raises it. Safe: the run of the model ends there. -/
  | noValue
  /-- Raised by a host read of `prog[i]` or `out[i]` with `i` at or above the length: the index does not exist
  (20_memory R50, R58; assumption log 18). No instruction raises it. Safe. -/
  | noSuchDigit
  deriving DecidableEq, Repr

/-- Why the model refuses to go on. -/
inductive Refusal where
  /-- Raised by an arm of `exec` whose instruction has no meaning yet. Safe. No arm uses it. -/
  | notModelled (mnemonic : String)
  /-- Raised by a `Load` of a program longer than `PROG_MAX`: "a model with a finite `PROG_MAX` refuses a longer
  `Load` as a host error" (40_execution_cycle R110). Safe. -/
  | programTooLong
  /-- Raised by a host command given while STATE is RUNNING: the host has no move there (93_implementation_defined
  I16). `step` never gives one. Safe. -/
  | hostMoveWhileRunning
  deriving DecidableEq, Repr

end Sys2Proof.Machine
end

