-- ==== Sys2Proof/WellFormed.lean ====
section
/-! DEFINITION. The checks of 70_reset_and_hazards R194 on a program, and of 30_encoding R79 on an instruction. -/

namespace Sys2Proof

/-- Every combo operand but the reserved digit 7 (30_encoding R77). -/
def Combo.wf (o : Combo) : Bool := o != .reserved

/-- The 59 of the 64 encodings that execute (30_encoding R79): a combo-class operand is not the reserved one. The
other five decode too, and their meaning is the fault of 30_encoding R77 (assumption log 12). -/
def Instr.wf : Instr → Bool
  | .adv src => src.wf
  | .bxl _ => true
  | .bst src => src.wf
  | .jnz _ => true
  | .bxc _ => true
  | .out src => src.wf
  | .bdv src => src.wf
  | .cdv src => src.wf

/-- `WF_EVEN_LENGTH` (70_reset_and_hazards R194). -/
def Program.evenLength (p : List Int) : Bool := p.length % 2 == 0

/-- `WF_DIGITS` (70_reset_and_hazards R194). -/
def Program.digits (p : List Int) : Bool := p.all fun d => decide (0 ≤ d ∧ d ≤ 7)

/-- A length within an optional bound; `none` is unbounded (00_scope R9). -/
def withinBound (n : Nat) : Option Nat → Bool
  | none => true
  | some bound => decide (n ≤ bound)

/-- `WF_LEN_MAX` (70_reset_and_hazards R194). -/
def Program.lenMax (params : Params) (p : List Int) : Bool := withinBound p.length params.progMax

/-- The three checks of 70_reset_and_hazards R194 together. -/
def Program.wf (params : Params) (p : List Int) : Bool :=
  Program.evenLength p && Program.digits p && Program.lenMax params p

end Sys2Proof
end

