-- ==== Sys2Proof/Machine/Ops.lean ====
section
/-! DEFINITION. The named operations over registers, instruction pointer, program and output buffer, raising a fault
(60_exceptions R165), and which state holds values (10_state R39). -/

namespace Sys2Proof.Machine

/-- `x[r]` (00_scope R12). -/
def State.reg (s : State) : Reg → Word
  | .a => s.a
  | .b => s.b
  | .c => s.c

/-- `x[r] <- v` (00_scope R12). -/
def State.setReg (s : State) (r : Reg) (v : Word) : State :=
  match r with
  | .a => { s with a := v }
  | .b => { s with b := v }
  | .c => { s with c := v }

/-- `ip <- v` (00_scope R12). -/
def State.setIp (s : State) (v : Nat) : State := { s with ip := v }

/-- The default advance `ip <- ip + 2` (40_execution_cycle R101). -/
def State.advance (s : State) : State := s.setIp (s.ip + 2)

/-- `MemRead(i, 1)` (00_scope R13); `none` where the program has no digit at `i`. -/
def State.memRead (s : State) (i : Nat) : Option Int := s.prog[i]?

/-- `OutAppend(d)` (00_scope R13). -/
def State.outAppend (s : State) (d : Digit) : State := { s with out := s.out ++ [d] }

/-- The output buffer is at its capacity (20_memory R57). -/
def State.outFull (s : State) : Bool := s.params.outCap == some s.out.length

def State.setRunState (s : State) (r : RunState) : State := { s with runState := r }

def State.setHofo (s : State) (h : Bool) : State := { s with hofo := h }

def State.setCommands (s : State) (cs : List Command) : State := { s with commands := cs }

/-- Fault entry: `STATE <- FAULTED, CAUSE <- code(F)`, and nothing else (60_exceptions R165). -/
def State.enterFault (s : State) (f : Cause) : State := { s with runState := .faulted, cause := f }

/-- `raise F` (00_scope R14): the command or step ends in the faulted state. There is no return but a successful
`Load` (60_exceptions R167). -/
def raise (f : Cause) (s : State) : Host.Outcome State Fault Refusal := .next (s.enterFault f)

/-- A, B, C, ip and MATCH hold values: a `Load` has succeeded, and no failed one came after it (10_state R39,
93_implementation_defined I14). CAUSE tells the difference once FAULTED: only a failed `Load` leaves code 1, and only
a command before any `Load` leaves code 11 (DEDUCED, assumption log 5). -/
def State.registersHeld (s : State) : Bool :=
  s.runState != .unloaded && s.cause != .invalidProgramLength && s.cause != .notLoaded

/-- The program and the output buffer hold values: always but after a failed `Load` (10_state R39,
40_execution_cycle R110, assumption log 5). -/
def State.buffersHeld (s : State) : Bool := s.cause != .invalidProgramLength

/-- The form of the two spaces, where they hold values: the program has even length (10_state R29) and at most
`PROG_MAX` digits, and the buffer at most `OUT_CAP` (20_memory R50). Sequences are already canonical: equal programs
and equal buffers are equal lists (assumption log 10). -/
def Memory.wf (s : State) : Bool :=
  !s.buffersHeld ||
    (Program.evenLength s.prog && Program.lenMax s.params s.prog && withinBound s.out.length s.params.outCap)

end Sys2Proof.Machine
end

