-- ==== Sys2Proof/Machine/Alu.lean ====
section
/-! DEFINITION. The arithmetic of 00_scope R11, 41_shift_divide R133 and 42_bitwise R143. -/

namespace Sys2Proof.Machine

/-- `floor_div(a, 2^s)` (00_scope R11): Lean's `/` on Int rounds down for a positive divisor. -/
def floorDiv (a : Int) (s : Nat) : Int := a / ((2 ^ s : Nat) : Int)

/-- `trunc_div(a, 2^s)` (00_scope R11). -/
def truncDiv (a : Int) (s : Nat) : Int := a.tdiv ((2 ^ s : Nat) : Int)

/-- `mod8(v)`: the low three bits (00_scope R11, 42_bitwise R143). -/
def mod8 (v : Word) : Digit := v.setWidth 3

/-- The exponent `shr` divides by. From 64 on the quotient of a 64-bit dividend no longer changes, so the exponent
stops there and every division can be evaluated (assumption log 14; `shr_spec` in Laws shows that nothing is lost). -/
def shiftCount (s : Word) : Nat := min s.toNat 64

/-- `shr(a, s)` (41_shift_divide R133), with its checks in that rule's order (41_shift_divide R134). -/
def shr (negDiv : NegDiv) (a s : Word) : Except Cause Word :=
  if s.toInt < 0 then .error .negativeShiftAmount
  else if 0 ≤ a.toInt then .ok (BitVec.ofInt 64 (floorDiv a.toInt (shiftCount s)))
  else
    match negDiv with
    | .floor => .ok (BitVec.ofInt 64 (floorDiv a.toInt (shiftCount s)))
    | .trunc => .ok (BitVec.ofInt 64 (truncDiv a.toInt (shiftCount s)))
    | .fault => .error .negativeDividend

end Sys2Proof.Machine
end

