-- ==== Sys2Proof/Machine/Operands.lean ====
section
/-! DEFINITION. The two operand forms (30_encoding R74 to R78). -/

namespace Sys2Proof.Machine

/-- `lit(d) = zext_64(d)` (30_encoding R75). -/
def literalValue (d : Digit) : Word := d.setWidth 64

/-- `combo(d)`, read before the step writes anything (30_encoding R76); the reserved digit raises (30_encoding R77). -/
def comboValue (o : Combo) (s : State) : Except Cause Word :=
  match o with
  | .lit v => .ok (v.setWidth 64)
  | .reg r => .ok (s.reg r)
  | .reserved => .error .reservedComboOperand

end Sys2Proof.Machine
end

