-- ==== Sys2Proof/Machine/Bitwise.lean ====
section
/-! DEFINITION. bxl, bst and bxc (42_bitwise). -/

namespace Sys2Proof.Machine

/-- `bxl d`: B <- B XOR literal (42_bitwise R140). -/
def execBxl (lit : Digit) (s : State) : Host.Outcome State Fault Refusal :=
  .next (s.setReg .b (s.b ^^^ literalValue lit)).advance

/-- `bst d`: B <- combo mod 8 (42_bitwise R141). -/
def execBst (src : Combo) (s : State) : Host.Outcome State Fault Refusal :=
  match comboValue src s with
  | .error f => raise f s
  | .ok v => .next (s.setReg .b ((mod8 v).setWidth 64)).advance

/-- `bxc d`: B <- B XOR C, whatever the operand digit (42_bitwise R142). -/
def execBxc (_ignored : Digit) (s : State) : Host.Outcome State Fault Refusal :=
  .next (s.setReg .b (s.b ^^^ s.c)).advance

end Sys2Proof.Machine
end

