-- ==== Sys2Proof/Machine/Control.lean ====
section
/-! DEFINITION. jnz and out (43_control_output). -/

namespace Sys2Proof.Machine

/-- `jnz d`: with A not zero the next index is the literal, else the usual advance (43_control_output R150). -/
def execJnz (target : Digit) (s : State) : Host.Outcome State Fault Refusal :=
  if s.a ≠ 0#64 then .next (s.setIp (literalValue target).toNat) else .next s.advance

/-- `out d`: append combo mod 8, unless the buffer is at its capacity (43_control_output R151). -/
def execOut (src : Combo) (s : State) : Host.Outcome State Fault Refusal :=
  match comboValue src s with
  | .error f => raise f s
  | .ok v => if s.outFull then raise .outputOverflow s else .next (s.outAppend (mod8 v)).advance

end Sys2Proof.Machine
end

