-- ==== Sys2Proof/Machine/ShiftDivide.lean ====
section
/-! DEFINITION. adv, bdv and cdv (41_shift_divide). -/

namespace Sys2Proof.Machine

/-- What the three instructions share: the combo operand first, then `shr` of the pre-step A, and the destination only
when neither raises (41_shift_divide R134). -/
def shiftDivide (dst : Reg) (src : Combo) (s : State) : Host.Outcome State Fault Refusal :=
  match comboValue src s with
  | .error f => raise f s
  | .ok amount =>
    match shr s.params.negDiv s.a amount with
    | .error f => raise f s
    | .ok q => .next (s.setReg dst q).advance

/-- `adv d`: A <- A divided by 2^combo (41_shift_divide R130). -/
def execAdv (src : Combo) (s : State) : Host.Outcome State Fault Refusal := shiftDivide .a src s

/-- `bdv d`: B <- A divided by 2^combo (41_shift_divide R131). -/
def execBdv (src : Combo) (s : State) : Host.Outcome State Fault Refusal := shiftDivide .b src s

/-- `cdv d`: C <- A divided by 2^combo (41_shift_divide R132). -/
def execCdv (src : Combo) (s : State) : Host.Outcome State Fault Refusal := shiftDivide .c src s

end Sys2Proof.Machine
end

