-- ==== Sys2Proof/Machine/Dispatch.lean ====
section
/-! DEFINITION. The dispatch of 40_execution_cycle R103: one arm per constructor. -/

namespace Sys2Proof.Machine

def exec (i : Instr) (s : State) : Host.Outcome State Fault Refusal :=
  match i with
  | .adv src => Sys2Proof.Machine.execAdv src s
  | .bxl lit => Sys2Proof.Machine.execBxl lit s
  | .bst src => Sys2Proof.Machine.execBst src s
  | .jnz target => Sys2Proof.Machine.execJnz target s
  | .bxc ignored => Sys2Proof.Machine.execBxc ignored s
  | .out src => Sys2Proof.Machine.execOut src s
  | .bdv src => Sys2Proof.Machine.execBdv src s
  | .cdv src => Sys2Proof.Machine.execCdv src s

end Sys2Proof.Machine
end

