-- ==== Sys2Proof/Machine/Flags.lean ====
section
/-! DEFINITION. The block has no flags (10_state R28). This file holds its control and status view: the codes of STATE
and CAUSE, MATCH, and the STATUS word (10_state R31 to R35). -/

namespace Sys2Proof.Machine

/-- The STATE codes (10_state R31). -/
def RunState.code : RunState → BitVec 3
  | .unloaded => 0#3
  | .ready => 1#3
  | .running => 2#3
  | .haltedEnd => 3#3
  | .haltedOutput => 4#3
  | .faulted => 5#3

/-- The fault codes (60_exceptions R160). -/
def Cause.code : Cause → BitVec 4
  | .none => 0#4
  | .invalidProgramLength => 1#4
  | .invalidOpcodeDigit => 2#4
  | .invalidOperandDigit => 3#4
  | .reservedComboOperand => 4#4
  | .fetchOutOfBounds => 5#4
  | .operandFetchOutOfBounds => 6#4
  | .negativeShiftAmount => 7#4
  | .negativeDividend => 8#4
  | .oddIp => 9#4
  | .outputOverflow => 10#4
  | .notLoaded => 11#4

/-- The fault a rejected digit raises (30_encoding R80). -/
def Cause.ofDecodeError : DecodeError → Cause
  | .invalidOpcodeDigit => .invalidOpcodeDigit
  | .invalidOperandDigit => .invalidOperandDigit

/-- MATCH: the output equals the program in length and in every element (10_state R34). -/
def State.matchOut (s : State) : Bool := (s.out.map fun d => (d.toNat : Int)) == s.prog

/-- OUT_NONEMPTY (10_state R35). -/
def State.outNonempty (s : State) : Bool := !s.out.isEmpty

/-- The MATCH bit as the STATUS word shows it: a free bit where MATCH has no value (assumption log 6). -/
def State.statusMatch (s : State) : Bool :=
  if s.registersHeld then s.matchOut else Config.noValueMatch s.freeDraws

/-- The STATUS word, its fields in the places 10_state R35 gives them and the rest 0. -/
def State.statusWord (s : State) : BitVec 32 :=
  0#22 ++ BitVec.ofBool s.outNonempty ++ BitVec.ofBool s.statusMatch ++ s.cause.code ++ BitVec.ofBool s.hofo ++
    s.runState.code

end Sys2Proof.Machine
end

