-- ==== Sys2Proof/Machine/Cycle.lean ====
section
/-! DEFINITION. The execution cycle, the host commands and the run-state machine (40_execution_cycle). -/

namespace Sys2Proof.Machine

/-- The parameter `ODD_IP` makes this index one to fault at (10_state R27). -/
def State.oddIpFaults (s : State) : Bool := s.params.oddIp == .fault && s.ip % 2 == 1

/-- The fetch of 40_execution_cycle R100 and R102, its checks in that order. `prog[ip]` is absent exactly when
`ip >= len(prog)`. -/
def fetch (s : State) : Except Cause (Int × Int) :=
  match s.memRead s.ip with
  | none => .error .fetchOutOfBounds
  | some op =>
    if s.oddIpFaults then .error .oddIp
    else
      match s.memRead (s.ip + 1) with
      | none => .error .operandFetchOutOfBounds
      | some d => .ok (op, d)

/-- Fetch, then decode: the instruction at `ip`, or the fault of the first check that fails (60_exceptions R162). -/
def fetchDecode (s : State) : Except Cause Instr :=
  match fetch s with
  | .error f => .error f
  | .ok (op, d) =>
    match decode op d with
    | .error e => .error (Cause.ofDecodeError e)
    | .ok i => .ok i

/-- `execute_one` (40_execution_cycle R100). -/
def executeOne (s : State) : Host.Outcome State Fault Refusal :=
  match fetchDecode s with
  | .error f => raise f s
  | .ok i => exec i s

/-- `ip < len(prog)` (40_execution_cycle R105). -/
def State.withinBounds (s : State) : Bool := decide (s.ip < s.prog.length)

/-- One turn of the loop of `Run`: both halt tests, then one instruction (40_execution_cycle R112). -/
def runTurn (s : State) : Host.Outcome State Fault Refusal :=
  if !s.withinBounds then .next (s.setRunState .haltedEnd)
  else if s.hofo && s.outNonempty then .next (s.setRunState .haltedOutput)
  else executeOne s

/-- The state a successful `Load` leaves (40_execution_cycle R110, 70_reset_and_hazards R195). -/
def State.loaded (s : State) (p : List Int) (a b c : Word) : State :=
  { s with
    a := a, b := b, c := c, ip := 0, prog := p, out := [], hofo := false, cause := .none, runState := .ready }

/-- The state a failed `Load` leaves: HOFO is 0, the fault is recorded, and the rest has no value
(40_execution_cycle R110), so each of those fields takes a free value and the counter advances past the ones drawn
(DESIGN CHOICE, safe, assumption log 4). -/
def State.failedLoad (s : State) : State :=
  { s with
    a := Config.noValueWord s.freeDraws, b := Config.noValueWord (s.freeDraws + 1),
    c := Config.noValueWord (s.freeDraws + 2), ip := Config.noValueIp s.freeDraws,
    prog := Config.noValueProg s.freeDraws, out := Config.noValueOut s.freeDraws, hofo := false,
    cause := .invalidProgramLength, runState := .faulted, freeDraws := s.freeDraws + 3 }

/-- `Load(prog, A0, B0, C0)` (40_execution_cycle R110). A program longer than `PROG_MAX` is refused before its length
is tested for evenness (92_eei_decisions D30, assumption log 8). -/
def commandLoad (p : List Int) (a b c : Word) (s : State) : Host.Outcome State Fault Refusal :=
  if !Program.lenMax s.params p then .refused .programTooLong
  else if Program.evenLength p then .next (s.loaded p a b c)
  else .next s.failedLoad

/-- The end of a `Step` that ran an instruction: STATE is READY unless the instruction faulted
(40_execution_cycle R111). -/
def settleStep (o : Host.Outcome State Fault Refusal) : Host.Outcome State Fault Refusal :=
  match o with
  | .next t => if t.runState = .faulted then .next t else .next (t.setRunState .ready)
  | .fault r => .fault r
  | .refused r => .refused r

/-- `Step()` (40_execution_cycle R111). -/
def commandStep (s : State) : Host.Outcome State Fault Refusal :=
  if s.runState = .unloaded then raise .notLoaded s
  else if s.runState = .faulted then .next s
  else settleStep (executeOne s)

/-- `Run(h)` up to its loop (40_execution_cycle R112): each later turn is one `runTurn` (assumption log 7). -/
def commandRun (h : Bool) (s : State) : Host.Outcome State Fault Refusal :=
  if s.runState = .unloaded then raise .notLoaded s
  else if s.runState = .faulted then .next s
  else .next ((s.setHofo h).setRunState .running)

/-- `MatchesProgram()` changes nothing (40_execution_cycle R113); its answer is `State.matchOut`. Where MATCH has no
value it stops: "a model must give a read no value (fault or refuse), not zero" (10_state R39; 40_execution_cycle R113,
93_implementation_defined I14, 92_eei_decisions D19, D20). -/
def commandMatchesProgram (s : State) : Host.Outcome State Fault Refusal :=
  if s.registersHeld then .next s else .fault .noValue

/-- What a host read gives. -/
inductive HostValue where
  | word (v : Word)
  | nat (n : Nat)
  | element (d : Int)
  | digit (d : Digit)
  | statusWord (w : BitVec 32)
  deriving DecidableEq, Repr

/-- The field holds a value (10_state R39, assumption log 5). STATUS always does: it shows the code of a failed `Load`
(60_exceptions R164). -/
def fieldHeld (field : HostField) (s : State) : Bool :=
  match field with
  | .reg _ => s.registersHeld
  | .ip => s.registersHeld
  | .progLen => s.buffersHeld
  | .prog _ => s.buffersHeld
  | .outLen => s.buffersHeld
  | .out _ => s.buffersHeld
  | .status => true

/-- The content of a field (10_state R36); `none` where a sequence has no element at that index (20_memory R50). -/
def fieldValue (field : HostField) (s : State) : Option HostValue :=
  match field with
  | .reg r => some (.word (s.reg r))
  | .ip => some (.nat s.ip)
  | .progLen => some (.nat s.prog.length)
  | .prog i => (s.memRead i).map .element
  | .outLen => some (.nat s.out.length)
  | .out i => s.out[i]?.map .digit
  | .status => some (.statusWord s.statusWord)

/-- The answer to a host read when STATE is not RUNNING (10_state R36); `none` where there is no value to give. -/
def hostRead (field : HostField) (s : State) : Option HostValue :=
  if fieldHeld field s then fieldValue field s else none

/-- A host read has no side effect (20_memory R56); its answer is `hostRead`. Of a field that holds no value it stops,
as 10_state R39 demands, and beyond the end of a sequence it stops too (assumption log 18). -/
def commandRead (field : HostField) (s : State) : Host.Outcome State Fault Refusal :=
  if fieldHeld field s then
    match fieldValue field s with
    | some _ => .next s
    | none => .fault .noSuchDigit
  else .fault .noValue

/-- One host command (40_execution_cycle R121). The host has no move while STATE is RUNNING
(93_implementation_defined I16). -/
def issue (cmd : Command) (s : State) : Host.Outcome State Fault Refusal :=
  if s.runState = .running then .refused .hostMoveWhileRunning
  else
    match cmd with
    | .load p a b c => commandLoad p a b c s
    | .step => commandStep s
    | .run h => commandRun h s
    | .matchesProgram => commandMatchesProgram s
    | .read field => commandRead field s

/-- One transition of the machine: a turn of `Run` while RUNNING, else the host's next command, and with none pending
all state is kept (60_exceptions R177, assumption log 7). -/
def cycle (s : State) : Host.Outcome State Fault Refusal :=
  if s.runState = .running then runTurn s
  else
    match s.commands with
    | [] => .next s
    | cmd :: rest => issue cmd (s.setCommands rest)

/-- A program with two digits at index `i`: what stands elsewhere is kept, a gap before `i` is filled with 0, and one
more 0 follows where the length would be odd (assumption log 13). -/
def placeAt (prog : List Int) (i : Nat) (op d : Int) : List Int :=
  let placed := prog.take i ++ List.replicate (i - prog.length) 0 ++ op :: d :: prog.drop (i + 2)
  if placed.length % 2 = 0 then placed else placed ++ [0]

/-- `s` inside a `Run` whose next turn fetches the two digits at `ip` (assumption log 13). HOFO is cleared only where
it would end the run first. -/
def State.withDigits (s : State) (op d : Int) : State :=
  { s with
    prog := placeAt s.prog s.ip op d, runState := .running, cause := .none,
    hofo := s.hofo && !s.outNonempty }

end Sys2Proof.Machine
end

