-- ==== Sys2Proof/Machine/Step.lean ====
section
/-! DEFINITION. The step of the machine, and the placing of one instruction where it fetches next. -/

namespace Sys2Proof.Machine

/-- One transition of the block: one turn of a `Run` in progress, or one host command (00_scope R8). -/
def step (s : State) : Host.Outcome State Fault Refusal := cycle s

/-- `s` with the instruction of packed value `w` (30_encoding R72) where `step` fetches next: its two digits at `ip`,
inside a `Run` that no halt test ends first (assumption log 13). -/
def State.withFetchWord (s : State) (nbits w : Nat) : State :=
  s.withDigits (((w % 2 ^ nbits) / 8 : Nat) : Int) (((w % 2 ^ nbits) % 8 : Nat) : Int)

end Sys2Proof.Machine
end

