-- ==== Sys2Proof/Machine/Listing.lean ====
section
/-! DEFINITION. The notation of 30_encoding R82 and R83: program text and assembly lines, as lists of characters. It
is notation only; no behaviour of the block rests on it. -/

namespace Sys2Proof.Machine

/-- The mnemonic (30_encoding R73). -/
def mnemonicChars : Instr → List Char
  | .adv _ => ['a', 'd', 'v']
  | .bxl _ => ['b', 'x', 'l']
  | .bst _ => ['b', 's', 't']
  | .jnz _ => ['j', 'n', 'z']
  | .bxc _ => ['b', 'x', 'c']
  | .out _ => ['o', 'u', 't']
  | .bdv _ => ['b', 'd', 'v']
  | .cdv _ => ['c', 'd', 'v']

/-- A digit 0 to 7 as a character. -/
def digitChar (d : Digit) : Char :=
  match d.toFin with
  | 0 => '0'
  | 1 => '1'
  | 2 => '2'
  | 3 => '3'
  | 4 => '4'
  | 5 => '5'
  | 6 => '6'
  | 7 => '7'

/-- The canonical text of a program: the digits in order, separated by commas (30_encoding R82). -/
def programText : List Digit → List Char
  | [] => []
  | [d] => [digitChar d]
  | d :: e :: rest => digitChar d :: ',' :: programText (e :: rest)

/-- An assembly line: mnemonic, a space, the operand digit (30_encoding R83). -/
def assemblyLine (i : Instr) : List Char := mnemonicChars i ++ [' ', digitChar (operandDigit i)]

/-- The line up to a comment (30_encoding R83). -/
def stripComment : List Char → List Char
  | [] => []
  | ch :: rest => if ch = '#' then [] else ch :: stripComment rest

/-- The words of a line, `word` being the one under way. -/
def lineWords (word : List Char) : List Char → List (List Char)
  | [] => if word = [] then [] else [word]
  | ch :: rest =>
    if ch = ' ' then (if word = [] then lineWords [] rest else word :: lineWords [] rest)
    else lineWords (word ++ [ch]) rest

/-- The opcode number of a mnemonic (30_encoding R73). -/
def opcodeOfMnemonic (word : List Char) : Option Digit :=
  if word = ['a', 'd', 'v'] then some 0#3
  else if word = ['b', 'x', 'l'] then some 1#3
  else if word = ['b', 's', 't'] then some 2#3
  else if word = ['j', 'n', 'z'] then some 3#3
  else if word = ['b', 'x', 'c'] then some 4#3
  else if word = ['o', 'u', 't'] then some 5#3
  else if word = ['b', 'd', 'v'] then some 6#3
  else if word = ['c', 'd', 'v'] then some 7#3
  else none

/-- The opcode takes a combo operand (30_encoding R74). -/
def isComboOpcode (op : Digit) : Bool :=
  op == 0#3 || op == 2#3 || op == 5#3 || op == 6#3 || op == 7#3

/-- The operand digit a word stands for: a digit, or `A`, `B`, `C` with a combo-class opcode (30_encoding R83). -/
def operandOfWord (op : Digit) (word : List Char) : Option Digit :=
  if word = ['0'] then some 0#3
  else if word = ['1'] then some 1#3
  else if word = ['2'] then some 2#3
  else if word = ['3'] then some 3#3
  else if word = ['4'] then some 4#3
  else if word = ['5'] then some 5#3
  else if word = ['6'] then some 6#3
  else if word = ['7'] then some 7#3
  else if isComboOpcode op ∧ word = ['A'] then some 4#3
  else if isComboOpcode op ∧ word = ['B'] then some 5#3
  else if isComboOpcode op ∧ word = ['C'] then some 6#3
  else none

/-- One line of assembly to its digits: none for an empty or comment line, else the opcode number and the operand
digit (30_encoding R83). -/
def assembleLine (line : List Char) : Option (List Int) :=
  match lineWords [] (stripComment line) with
  | [] => some []
  | [m, o] =>
    match opcodeOfMnemonic m with
    | none => none
    | some op =>
      match operandOfWord op o with
      | none => none
      | some d => some [(op.toNat : Int), (d.toNat : Int)]
  | _ => none

end Sys2Proof.Machine
end

