-- ==== Sys2Proof/Machine/Run.lean ====
section
/-! DEFINITION. A whole `Run` under fuel (40_execution_cycle R107, 70_reset_and_hazards R200). -/

namespace Sys2Proof.Machine

/-- What a run under fuel comes to. Running out of fuel is "not yet ended", never an end (70_reset_and_hazards R200). -/
inductive RunResult where
  | ended (s : State)
  | notYetEnded (s : State)
  | fault (r : Fault)
  | refused (r : Refusal)
  deriving DecidableEq, Repr

/-- The loop of `Run` (40_execution_cycle R112) for at most `fuel` turns: it ends when STATE is no longer RUNNING
(40_execution_cycle R106). -/
def runLoop (fuel : Nat) (s : State) : RunResult :=
  match fuel with
  | 0 => if s.runState = .running then .notYetEnded s else .ended s
  | n + 1 =>
    if s.runState = .running then
      match runTurn s with
      | .next t => runLoop n t
      | .fault r => .fault r
      | .refused r => .refused r
    else .ended s

/-- The command `Run(h)` as the host sees it, under fuel (40_execution_cycle R112). -/
def runUnderFuel (fuel : Nat) (h : Bool) (s : State) : RunResult :=
  match issue (.run h) s with
  | .next t => runLoop fuel t
  | .fault r => .fault r
  | .refused r => .refused r

end Sys2Proof.Machine
end

