-- ==== Sys2Proof/Safety.lean ====
section
/-! DEFINITION. What claims about runs are said in: the end of a run, a launch, and the invariants of the block. -/

namespace Sys2Proof.Machine

/-- The last `Run` has ended well: a FAULTED state is never final (40_execution_cycle R106, 60_exceptions R168). -/
def State.final (s : State) : Bool := s.runState == .haltedEnd || s.runState == .haltedOutput

/-- A launch of `p` from `(a, b, c)`: the state just after that `Load` succeeds (70_reset_and_hazards R195). -/
structure State.IsLaunch (s : State) (p : List Int) (a b c : Word) : Prop where
  isReady : s.runState = .ready
  noCause : s.cause = .none
  hofoClear : s.hofo = false
  ipZero : s.ip = 0
  outEmpty : s.out = []
  progGiven : s.prog = p
  aGiven : s.a = a
  bGiven : s.b = b
  cGiven : s.c = c

/-- The fields of a state agree with one another as the spec's rules say they do. -/
structure State.Consistent (s : State) : Prop where
  /-- CAUSE is 0 exactly when STATE is not FAULTED (10_state R32). -/
  causeIff : s.cause = .none ↔ s.runState ≠ .faulted
  /-- Before any `Load`: an empty program, an empty buffer, HOFO 0 (10_state R39). -/
  beforeLoad : s.runState = .unloaded ∨ s.cause = .notLoaded → s.prog = [] ∧ s.out = [] ∧ s.hofo = false
  /-- After a failed `Load` HOFO is 0 (40_execution_cycle R110). -/
  failedLoadHofo : s.cause = .invalidProgramLength → s.hofo = false
  /-- The two spaces keep their form (10_state R29, 20_memory R50). -/
  memory : Memory.wf s = true
  /-- `ip` never exceeds `max(len(prog), 7)` (10_state R26). -/
  ipBound : s.registersHeld = true → s.ip ≤ max s.prog.length 7
  /-- HALTED_END: `ip` is out of bounds (10_state R31). -/
  endHalt : s.runState = .haltedEnd → s.prog.length ≤ s.ip
  /-- HALTED_OUTPUT: HOFO is 1, the buffer is not empty, and `ip` is within bounds (10_state R31,
  92_eei_decisions D31). -/
  outputHalt : s.runState = .haltedOutput → s.hofo = true ∧ s.out ≠ [] ∧ s.ip < s.prog.length

/-- No register that holds a value is negative, and no pending `Load` brings a negative value (10_state R23). -/
structure State.Nonneg (s : State) : Prop where
  registers : s.registersHeld = true → ∀ r, 0 ≤ (s.reg r).toInt
  pendingLoads : ∀ p a b c, Command.load p a b c ∈ s.commands → 0 ≤ a.toInt ∧ 0 ≤ b.toInt ∧ 0 ≤ c.toInt

end Sys2Proof.Machine
end

