-- ==== Sys2Proof/Certificates/Slice0/Obligations.lean ====
section
/-! DEFINITION. The statements about the block, for the provers. Each docstring names the rule of spec/ it is taken
from; where the spec marks that rule as its own decision or derivation, it says so. -/

open Sys2Proof Sys2Proof.Machine

/-! ## Encoding and notation -/

/-- Words written out from the opcode map (30_encoding, section 4), one or more of each instruction. The numbers of
opcodes 1, 2, 4, 6 and 7 are the spec's decision D2. -/
def Obligations.SpecWordsDecode : Prop :=
  decode 0 3 = .ok (.adv (.lit 3#2)) ∧ decode 1 7 = .ok (.bxl 7#3) ∧ decode 2 6 = .ok (.bst (.reg .c)) ∧
    decode 3 0 = .ok (.jnz 0#3) ∧ decode 4 7 = .ok (.bxc 7#3) ∧ decode 5 4 = .ok (.out (.reg .a)) ∧
    decode 6 5 = .ok (.bdv (.reg .b)) ∧ decode 7 7 = .ok (.cdv .reserved)

/-- Decoding and encoding are inverse: each instruction has exactly one pair of digits, and each pair that decodes is
the encoding of what it decodes to (30_encoding, sections 1 and 4; R79 is marked derived). -/
def Obligations.DecodeInvertsEncode : Prop :=
  ∀ (op d : Int) (i : Instr), decode op d = .ok i ↔ encode i = (op, d)

/-- Which pairs decode and which of the two names rejects the others, the opcode digit first (30_encoding, section 4;
decision D14 for the operand digit, D16 for the order). -/
def Obligations.DecodeRefusesByDigit : Prop :=
  ∀ op d : Int,
    (¬(0 ≤ op ∧ op ≤ 7) → decode op d = .error .invalidOpcodeDigit) ∧
    (0 ≤ op ∧ op ≤ 7 → ¬(0 ≤ d ∧ d ≤ 7) → decode op d = .error .invalidOperandDigit) ∧
    (0 ≤ op ∧ op ≤ 7 → 0 ≤ d ∧ d ≤ 7 → ∃ i, decode op d = .ok i)

/-- The packed value is opcode * 8 + operand, and the table's decoder reads the instruction back from it
(30_encoding, section 1; notation of decision D3). -/
def Obligations.PackedWordDecodes : Prop :=
  ∀ (i : Instr) (nbits : Nat), 6 ≤ nbits →
    ((packed i).toNat : Int) = (encode i).1 * 8 + (encode i).2 ∧
      decodeTableWord nbits (packed i).toNat = some i

/-- The listing of an assembled program shows its instructions, and the program passes the even-length and digit
checks (30_encoding, section 5; 70_reset_and_hazards, section 2). -/
def Obligations.ListingOfAssembledProgram : Prop :=
  ∀ is : List Instr, disassemble (assemble is) = is.map .ok ∧
    Program.evenLength (assemble is) = true ∧ Program.digits (assemble is) = true

/-- An instruction's assembly line assembles to its two digits (30_encoding, section 5; decision D27). -/
def Obligations.AssemblyLineAssembles : Prop :=
  ∀ i : Instr, assembleLine (assemblyLine i) = some [(encode i).1, (encode i).2]

/-! ## Operands and arithmetic -/

/-- R76: digits 0 to 3 are literal, 4, 5 and 6 are registers A, B and C, and 7 raises. -/
def Obligations.ComboOperandValue : Prop :=
  ∀ (d : Digit) (s : State),
    if d.toNat ≤ 3 then ∃ v, comboValue (comboOf d) s = .ok v ∧ v.toInt = d.toNat
    else if d.toNat = 4 then comboValue (comboOf d) s = .ok s.a
    else if d.toNat = 5 then comboValue (comboOf d) s = .ok s.b
    else if d.toNat = 6 then comboValue (comboOf d) s = .ok s.c
    else comboValue (comboOf d) s = .error .reservedComboOperand

/-- R11: `floor_div` is the greatest q with q * 2^s <= a, `trunc_div` rounds toward zero, and `mod8` is the Euclidean
remainder, which is the low three bits. -/
def Obligations.DivisionHelpersAreExact : Prop :=
  (∀ (a q : Int) (k : Nat), q * 2 ^ k ≤ a ↔ q ≤ floorDiv a k) ∧
    (∀ (a : Int) (k : Nat), 0 ≤ a → truncDiv a k = floorDiv a k) ∧
    (∀ (a : Int) (k : Nat), a < 0 → truncDiv a k = -floorDiv (-a) k) ∧
    (∀ v : Word, ((mod8 v).toNat : Int) = v.toInt - 8 * floorDiv v.toInt 3 ∧
      ∀ k, k < 3 → (mod8 v).getLsbD k = v.getLsbD k)

/-- The shared operation `shr` for every amount and dividend (41_shift_divide, section 1). The negative amount, the
negative dividend and amounts of 64 or more follow the spec's decisions D9, D8 and D7. -/
def Obligations.ShrDividesByPowerOfTwo : Prop :=
  ∀ (nd : NegDiv) (a s : Word),
    (s.toInt < 0 → shr nd a s = .error .negativeShiftAmount) ∧
    (0 ≤ s.toInt → 0 ≤ a.toInt → ∃ q, shr nd a s = .ok q ∧ q.toInt = a.toInt / 2 ^ s.toNat) ∧
    (0 ≤ s.toInt → a.toInt < 0 → nd = .floor → ∃ q, shr nd a s = .ok q ∧ q.toInt = a.toInt / 2 ^ s.toNat) ∧
    (0 ≤ s.toInt → a.toInt < 0 → nd = .trunc → ∃ q, shr nd a s = .ok q ∧ q.toInt = a.toInt.tdiv (2 ^ s.toNat)) ∧
    (0 ≤ s.toInt → a.toInt < 0 → nd = .fault → shr nd a s = .error .negativeDividend)

/-- No shift instruction can overflow: the result lies between 0 and the dividend, or between the dividend and -1, in
magnitude (10_state, section 1, derived; 41_shift_divide, section 1, derived). The last clause, 0 for an amount of 63
or more, is the spec's decision D7 (assumption log 16, unsafe). -/
def Obligations.ShrStaysWithinDividend : Prop :=
  ∀ (nd : NegDiv) (a s q : Word), shr nd a s = .ok q →
    q.toInt.natAbs ≤ a.toInt.natAbs ∧ (0 ≤ a.toInt → 0 ≤ q.toInt) ∧ (a.toInt < 0 → q.toInt ≤ 0) ∧
      (0 ≤ a.toInt → 63 ≤ s.toNat → q.toInt = 0)

/-! ## The instructions: results, frames and where they raise -/

/-- adv (41_shift_divide, section 2): with a readable combo operand of at least 0, and a dividend that `NEG_DIV` lets
it divide, it completes. Only A and ip change. The negative dividend follows decision D8. -/
def Obligations.AdvDividesAIntoA : Prop :=
  ∀ (src : Combo) (s : State) (amount : Word), comboValue src s = .ok amount → 0 ≤ amount.toInt →
    (0 ≤ s.a.toInt ∨ s.params.negDiv ≠ .fault) →
    ∃ q : Word, exec (.adv src) s = .next { s with a := q, ip := s.ip + 2 } ∧
      q.toInt = if 0 ≤ s.a.toInt ∨ s.params.negDiv = .floor then s.a.toInt / 2 ^ amount.toNat
        else s.a.toInt.tdiv (2 ^ amount.toNat)

/-- bdv (41_shift_divide, section 2): as adv, into B. Only B and ip change; `bdv 0` copies A (conflict C3). -/
def Obligations.BdvDividesAIntoB : Prop :=
  ∀ (src : Combo) (s : State) (amount : Word), comboValue src s = .ok amount → 0 ≤ amount.toInt →
    (0 ≤ s.a.toInt ∨ s.params.negDiv ≠ .fault) →
    ∃ q : Word, exec (.bdv src) s = .next { s with b := q, ip := s.ip + 2 } ∧
      (q.toInt = if 0 ≤ s.a.toInt ∨ s.params.negDiv = .floor then s.a.toInt / 2 ^ amount.toNat
        else s.a.toInt.tdiv (2 ^ amount.toNat)) ∧
      (amount = 0#64 → q = s.a)

/-- cdv (41_shift_divide, section 2): as adv, into C. Only C and ip change; `cdv 0` copies A (conflict C3). -/
def Obligations.CdvDividesAIntoC : Prop :=
  ∀ (src : Combo) (s : State) (amount : Word), comboValue src s = .ok amount → 0 ≤ amount.toInt →
    (0 ≤ s.a.toInt ∨ s.params.negDiv ≠ .fault) →
    ∃ q : Word, exec (.cdv src) s = .next { s with c := q, ip := s.ip + 2 } ∧
      (q.toInt = if 0 ≤ s.a.toInt ∨ s.params.negDiv = .floor then s.a.toInt / 2 ^ amount.toNat
        else s.a.toInt.tdiv (2 ^ amount.toNat)) ∧
      (amount = 0#64 → q = s.a)

/-- Where adv, bdv and cdv raise, the combo operand first, then the amount, then the dividend, with every register,
ip and digit kept (41_shift_divide, section 1; decisions D8, D9, D16 and D17). -/
def Obligations.ShiftInstructionsRaiseInOrder : Prop :=
  ∀ (src : Combo) (s : State) (i : Instr), i = .adv src ∨ i = .bdv src ∨ i = .cdv src →
    (src = .reserved → exec i s = .next { s with runState := .faulted, cause := .reservedComboOperand }) ∧
    (∀ amount, comboValue src s = .ok amount → amount.toInt < 0 →
      exec i s = .next { s with runState := .faulted, cause := .negativeShiftAmount }) ∧
    (∀ amount, comboValue src s = .ok amount → 0 ≤ amount.toInt → s.a.toInt < 0 → s.params.negDiv = .fault →
      exec i s = .next { s with runState := .faulted, cause := .negativeDividend })

/-- The corner case of the combo operand 4 (41_shift_divide, section 2, derived): with A as dividend and as amount the
quotient of an A of at least 0 is 0, and a negative A raises. -/
def Obligations.ShiftByItselfGivesZero : Prop :=
  ∀ s : State,
    (0 ≤ s.a.toInt → exec (.adv (.reg .a)) s = .next { s with a := 0#64, ip := s.ip + 2 } ∧
      exec (.bdv (.reg .a)) s = .next { s with b := 0#64, ip := s.ip + 2 }) ∧
    (s.a.toInt < 0 →
      exec (.adv (.reg .a)) s = .next { s with runState := .faulted, cause := .negativeShiftAmount })

/-- R140: bxl completes in every state; B takes the exclusive or with the literal, so that only its low three bits can
change, its sign stays and `bxl 0` leaves it; only B and ip change. -/
def Obligations.BxlXorsLiteralIntoB : Prop :=
  ∀ (d : Digit) (s : State), (packed (.bxl d)).toNat = 0x08 + d.toNat ∧
    ∃ v : Word, exec (.bxl d) s = .next { s with b := v, ip := s.ip + 2 } ∧
      (∀ k, k < 3 → v.getLsbD k = (s.b.getLsbD k ^^ d.getLsbD k)) ∧
      (∀ k, 3 ≤ k → v.getLsbD k = s.b.getLsbD k) ∧
      (v.toInt < 0 ↔ s.b.toInt < 0) ∧ (d = 0#3 → v = s.b)

/-- bst (42_bitwise, section 2): with a readable combo operand it completes; B takes the operand mod 8, 0 to 7; only B
and ip change. For a negative operand the remainder is the spec's decision D10. -/
def Obligations.BstTakesMod8IntoB : Prop :=
  ∀ (src : Combo) (s : State) (v : Word), comboValue src s = .ok v →
    ∃ r : Word, exec (.bst src) s = .next { s with b := r, ip := s.ip + 2 } ∧ r.toInt = v.toInt % 8

/-- R142: bxc completes in every state with any operand digit; B takes B xor C, 0 when they are equal, its sign the
exclusive or of theirs; only B and ip change. An operand digit outside 0 to 7 is refused at decode. -/
def Obligations.BxcXorsCIntoB : Prop :=
  (∀ (d : Digit) (s : State), (packed (.bxc d)).toNat = 0x20 + d.toNat ∧
    ∃ v : Word, exec (.bxc d) s = .next { s with b := v, ip := s.ip + 2 } ∧
      (∀ k, v.getLsbD k = (s.b.getLsbD k ^^ s.c.getLsbD k)) ∧
      (s.b = s.c → v = 0#64) ∧ (v.toInt < 0 ↔ ¬(s.b.toInt < 0 ↔ s.c.toInt < 0))) ∧
    ∀ v : Int, ¬(0 ≤ v ∧ v ≤ 7) → decode 4 v = .error .invalidOperandDigit

/-- R150: jnz completes in every state. With A not zero, negative A included, ip takes the literal, whatever the
program's length; with A zero it advances by two; nothing else changes. At a target at or beyond the end the next halt
test of a `Run` stops in HALTED_END, and executing there raises FETCH_OUT_OF_BOUNDS. A taken jump to its own index
inside a `Run` comes back to the same state, so it loops forever. -/
def Obligations.JnzJumpsOnNonzeroA : Prop :=
  ∀ (d : Digit) (s : State), (packed (.jnz d)).toNat = 0x18 + d.toNat ∧
    (s.a.toInt ≠ 0 → exec (.jnz d) s = .next { s with ip := d.toNat }) ∧
    (s.a.toInt = 0 → exec (.jnz d) s = .next { s with ip := s.ip + 2 }) ∧
    (s.prog.length ≤ d.toNat →
      executeOne { s with ip := d.toNat } =
        .next { s with ip := d.toNat, runState := .faulted, cause := .fetchOutOfBounds } ∧
      (s.runState = .running →
        step { s with ip := d.toNat } = .next { s with ip := d.toNat, runState := .haltedEnd })) ∧
    (s.a.toInt ≠ 0 → s.runState = .running → (s.hofo = false ∨ s.out = []) → fetchDecode s = .ok (.jnz d) →
      s.ip = d.toNat → step s = .next s)

/-- out (43_control_output, section 2): with a readable combo operand and room in the buffer it completes; the operand
mod 8 is appended; only the buffer and ip change. `OUT_CAP` is the spec's decision D6, the negative operand D10. -/
def Obligations.OutAppendsMod8 : Prop :=
  ∀ (src : Combo) (s : State) (v : Word), comboValue src s = .ok v → s.params.outCap ≠ some s.out.length →
    ∃ d : Digit, exec (.out src) s = .next { s with out := s.out ++ [d], ip := s.ip + 2 } ∧
      (d.toNat : Int) = v.toInt % 8

/-- Where out raises for lack of room (20_memory, section 4; decision D6), nothing appended. -/
def Obligations.OutRaisesWhenBufferFull : Prop :=
  ∀ (src : Combo) (s : State), src ≠ .reserved → s.params.outCap = some s.out.length →
    exec (.out src) s = .next { s with runState := .faulted, cause := .outputOverflow }

/-- R77: the five combo-class encodings with operand 7 raise RESERVED_COMBO_OPERAND, and they are the packed values
0x07, 0x17, 0x2F, 0x37 and 0x3F; operand 7 is legal for bxl, jnz and bxc. -/
def Obligations.ReservedComboRaises : Prop :=
  (∀ (i : Instr) (s : State), i.wf = false →
    (packed i = 0x07#6 ∨ packed i = 0x17#6 ∨ packed i = 0x2F#6 ∨ packed i = 0x37#6 ∨ packed i = 0x3F#6) ∧
      operandDigit i = 7#3 ∧
      exec i s = .next { s with runState := .faulted, cause := .reservedComboOperand }) ∧
    (∀ (src : Combo), src = .reserved ↔ comboDigit src = 7#3) ∧
    ∀ (i : Instr) (s : State), i = .bxl 7#3 ∨ i = .jnz 7#3 ∨ i = .bxc 7#3 →
      ∃ t, exec i s = .next t ∧ t.runState = s.runState ∧ t.cause = s.cause

/-- R163: which instruction raises which execution fault; bxl, jnz and bxc raise none. -/
def Obligations.ExecutionFaultsByInstruction : Prop :=
  ∀ (i : Instr) (s t : State), s.runState ≠ .faulted → exec i s = .next t → t.runState = .faulted →
    (t.cause = .reservedComboOperand ∧
      ∃ src, i = .adv src ∨ i = .bst src ∨ i = .out src ∨ i = .bdv src ∨ i = .cdv src) ∨
    ((t.cause = .negativeShiftAmount ∨ t.cause = .negativeDividend) ∧
      ∃ src, i = .adv src ∨ i = .bdv src ∨ i = .cdv src) ∨
    (t.cause = .outputOverflow ∧ ∃ src, i = .out src)

/-- Every instruction answers a next state in every state: a fault is taken, not a stop of the model (30_encoding,
section 4, R79 marked derived; 60_exceptions, section 2). -/
def Obligations.ExecAlwaysAnswersNext : Prop :=
  ∀ (i : Instr) (s : State), ∃ t, exec i s = .next t

/-- The write column of the register table (10_state, section 1, derived) and the rest of the frame: each register and
the buffer change only under the instructions named for them, and no instruction changes the program, HOFO, the
parameters, the host's commands or the free-value counter (those three fields are the model's, assumption log 2, 7
and 4). -/
def Obligations.OnlyNamedInstructionsWrite : Prop :=
  ∀ (i : Instr) (s t : State), exec i s = .next t →
    (t.a ≠ s.a → ∃ src, i = .adv src) ∧
    (t.b ≠ s.b → (∃ d, i = .bxl d ∨ i = .bxc d) ∨ ∃ src, i = .bst src ∨ i = .bdv src) ∧
    (t.c ≠ s.c → ∃ src, i = .cdv src) ∧
    (t.out ≠ s.out → ∃ src d, i = .out src ∧ t.out = s.out ++ [d]) ∧
    t.prog = s.prog ∧ t.hofo = s.hofo ∧ t.params = s.params ∧ t.commands = s.commands ∧ t.freeDraws = s.freeDraws ∧
    ((t.runState = s.runState ∧ t.cause = s.cause) ∨ t.runState = .faulted)

/-- The read column of the register table (10_state, section 1, derived). Let `i` name `r` neither by its opcode nor by
its combo digit; then another value in `r` changes nothing but `r` itself: ip, buffer, STATE, CAUSE and the other
registers come out the same, and `r` keeps the other value unless `i` writes it, in which case it comes out the same. -/
def Obligations.OnlyNamedRegistersAreRead : Prop :=
  ∀ (i : Instr) (r : Reg) (v : Word) (s t : State),
    (r = .a → ∀ src d, i ≠ .adv src ∧ i ≠ .bdv src ∧ i ≠ .cdv src ∧ i ≠ .jnz d) →
    (r = .b → ∀ d, i ≠ .bxl d ∧ i ≠ .bxc d) →
    (r = .c → ∀ d, i ≠ .bxc d) →
    (i ≠ .adv (.reg r) ∧ i ≠ .bst (.reg r) ∧ i ≠ .out (.reg r) ∧ i ≠ .bdv (.reg r) ∧ i ≠ .cdv (.reg r)) →
    exec i s = .next t →
    ∃ u, exec i (s.setReg r v) = .next u ∧ u.ip = t.ip ∧ u.out = t.out ∧ u.runState = t.runState ∧
      u.cause = t.cause ∧ (∀ q, q ≠ r → u.reg q = t.reg q) ∧
      (u.reg r = t.reg r ∨ (u.reg r = v ∧ t.reg r = s.reg r))

/-- R25: every instruction but a taken jnz advances ip by two, a taken jnz sets it to its literal, and a faulting step
leaves it unchanged. -/
def Obligations.IpAdvancesByTwo : Prop :=
  (∀ (i : Instr) (s : State), s.runState ≠ .faulted →
    ∃ t, exec i s = .next t ∧
      (t.runState = .faulted → t.ip = s.ip) ∧
      (t.runState ≠ .faulted →
        (∀ d, i = .jnz d → s.a.toInt ≠ 0 → t.ip = d.toNat) ∧
        ((∀ d, i = .jnz d → s.a.toInt = 0) → t.ip = s.ip + 2))) ∧
    ∀ s : State, s.runState ≠ .faulted → ∃ t, executeOne s = .next t ∧ (t.runState = .faulted → t.ip = s.ip)

/-! ## The execution cycle -/

/-- A step runs the decoded instruction (40_execution_cycle, sections 1 and 2). Inside a `Run` that no halt test ends,
`step` is `exec`; a pending `Step` command runs it and leaves READY unless it faulted. Whatever stands at ip, also
where fetch or decode faults, a pending `Step` is `execute_one`, and its fault stays; beyond the end that fault is
FETCH_OUT_OF_BOUNDS (decisions D13 and D17). -/
def Obligations.StepRunsDecodedInstruction : Prop :=
  (∀ (s u : State) (rest : List Command),
    s.runState = .ready ∨ s.runState = .haltedEnd ∨ s.runState = .haltedOutput → s.commands = .step :: rest →
    executeOne { s with commands := rest } = .next u →
    step s = .next (if u.runState = .faulted then u else { u with runState := .ready })) ∧
  (∀ (s : State) (rest : List Command),
    s.runState = .ready ∨ s.runState = .haltedEnd ∨ s.runState = .haltedOutput → s.commands = .step :: rest →
    s.prog.length ≤ s.ip →
    step s = .next { s with runState := .faulted, cause := .fetchOutOfBounds, commands := rest }) ∧
  ∀ (s : State) (op d : Int) (i : Instr), s.prog[s.ip]? = some op → s.prog[s.ip + 1]? = some d →
    decode op d = .ok i → (s.params.oddIp = .execute ∨ s.ip % 2 = 0) →
    (s.runState = .running → (s.hofo = false ∨ s.out = []) → step s = exec i s) ∧
    (∀ (rest : List Command) (t : State),
      s.runState = .ready ∨ s.runState = .haltedEnd ∨ s.runState = .haltedOutput →
      s.commands = .step :: rest → exec i { s with commands := rest } = .next t →
      step s = .next (if t.runState = .faulted then t else { t with runState := .ready }))

/-- The checks of fetch and decode in their order, each with the fault it raises and nothing else changed
(40_execution_cycle, section 1; 60_exceptions, section 2; decisions D11 to D14, D16 and D17). -/
def Obligations.FetchAndDecodeFaultInOrder : Prop :=
  ∀ s : State,
    (s.prog.length ≤ s.ip →
      executeOne s = .next { s with runState := .faulted, cause := .fetchOutOfBounds }) ∧
    (s.ip < s.prog.length → s.params.oddIp = .fault → s.ip % 2 = 1 →
      executeOne s = .next { s with runState := .faulted, cause := .oddIp }) ∧
    (s.ip + 1 = s.prog.length → (s.params.oddIp = .execute ∨ s.ip % 2 = 0) →
      executeOne s = .next { s with runState := .faulted, cause := .operandFetchOutOfBounds }) ∧
    ∀ op d : Int, s.prog[s.ip]? = some op → s.prog[s.ip + 1]? = some d →
      (s.params.oddIp = .execute ∨ s.ip % 2 = 0) →
      (¬(0 ≤ op ∧ op ≤ 7) → executeOne s = .next { s with runState := .faulted, cause := .invalidOpcodeDigit }) ∧
      (0 ≤ op ∧ op ≤ 7 → ¬(0 ≤ d ∧ d ≤ 7) →
        executeOne s = .next { s with runState := .faulted, cause := .invalidOperandDigit }) ∧
      (∀ i, decode op d = .ok i → executeOne s = exec i s)

/-- Faults are precise (60_exceptions, section 2, derived from D17): a step into FAULTED that is no failed `Load`
changes STATE and CAUSE only, and takes the command that raised it. -/
def Obligations.FaultsArePrecise : Prop :=
  ∀ s t : State, s.runState ≠ .faulted → step s = .next t → t.runState = .faulted →
    t.cause ≠ .invalidProgramLength →
    t = { s with runState := .faulted, cause := t.cause, commands := t.commands } ∧ t.cause ≠ .none ∧
      (s.runState = .running → t.commands = s.commands) ∧
      (s.runState ≠ .running → ∃ cmd, s.commands = cmd :: t.commands)

/-- There is no return from a fault but a successful `Load` (60_exceptions, section 3, decision D17): `Step` and `Run`
change nothing, and a step that leaves FAULTED is such a `Load`. -/
def Obligations.FaultedLeftOnlyByLoad : Prop :=
  ∀ s : State, s.runState = .faulted →
    (∀ (cmd : Command) (rest : List Command), s.commands = cmd :: rest → (cmd = .step ∨ ∃ h, cmd = .run h) →
      step s = .next { s with commands := rest }) ∧
    ∀ t, step s = .next t → t.runState ≠ .faulted →
      ∃ p a b c, s.commands = .load p a b c :: t.commands ∧ p.length % 2 = 0 ∧ t.IsLaunch p a b c

/-! ## Host commands -/

/-- R195: a `Load` of even length (within `PROG_MAX`) gives the launch state, in any STATE but RUNNING. -/
def Obligations.LoadGivesLaunch : Prop :=
  ∀ (s : State) (p : List Int) (a b c : Word) (rest : List Command), s.runState ≠ .running →
    s.commands = .load p a b c :: rest → p.length % 2 = 0 → Program.lenMax s.params p = true →
    ∃ t, step s = .next t ∧ t.IsLaunch p a b c ∧ t.commands = rest ∧ t.params = s.params ∧
      t.freeDraws = s.freeDraws

/-- A `Load` of odd length leaves FAULTED with CAUSE 1 and HOFO 0, and nothing but STATUS can be read: register,
ip, program and buffer have no value (40_execution_cycle, section 2, decision D20; assumption log 4 and 5). -/
def Obligations.OddLoadLeavesNoValue : Prop :=
  ∀ (s : State) (p : List Int) (a b c : Word) (rest : List Command), s.runState ≠ .running →
    s.commands = .load p a b c :: rest → p.length % 2 = 1 → Program.lenMax s.params p = true →
    ∃ t, step s = .next t ∧ t.runState = .faulted ∧ t.cause = .invalidProgramLength ∧ t.hofo = false ∧
      t.commands = rest ∧ t.params = s.params ∧ ∀ field, field ≠ .status → hostRead field t = none

/-- A `Load` longer than `PROG_MAX` is refused by name (40_execution_cycle, section 2, decision D30; assumption
log 8). -/
def Obligations.LongLoadIsRefused : Prop :=
  ∀ (s : State) (p : List Int) (a b c : Word) (rest : List Command) (bound : Nat), s.runState ≠ .running →
    s.commands = .load p a b c :: rest → s.params.progMax = some bound → bound < p.length →
    step s = .refused .programTooLong

/-- `Step` and `Run` before any `Load` raise NOT_LOADED and change nothing else (40_execution_cycle, section 2,
decision D19). -/
def Obligations.CommandsBeforeLoadRaise : Prop :=
  ∀ (s : State) (cmd : Command) (rest : List Command), s.runState = .unloaded → s.commands = cmd :: rest →
    (cmd = .step ∨ ∃ h, cmd = .run h) →
    step s = .next { s with runState := .faulted, cause := .notLoaded, commands := rest }

/-- `Run(h)` writes HOFO and enters RUNNING, from READY and from both halted states (40_execution_cycle, section 2;
decision D28 for a second `Run`). -/
def Obligations.RunCommandStartsLoop : Prop :=
  ∀ (s : State) (h : Bool) (rest : List Command),
    s.runState = .ready ∨ s.runState = .haltedEnd ∨ s.runState = .haltedOutput → s.commands = .run h :: rest →
    step s = .next { s with hofo := h, runState := .running, commands := rest }

/-- R105: `ip` is within bounds exactly when `prog[ip]` exists; out of bounds a `Run` stops in HALTED_END, and a jump
to a target at or beyond the end ends the run at the next test. -/
def Obligations.RunStopsOutOfBounds : Prop :=
  ∀ s : State, (s.ip < s.prog.length ↔ ∃ op, s.prog[s.ip]? = some op) ∧
    (s.runState = .running → s.prog.length ≤ s.ip → step s = .next { s with runState := .haltedEnd }) ∧
    (∀ d : Digit, s.runState = .running → (s.hofo = false ∨ s.out = []) → fetchDecode s = .ok (.jnz d) →
      s.a.toInt ≠ 0 → s.prog.length ≤ d.toNat →
      ∃ t, step s = .next t ∧ step t = .next { s with ip := d.toNat, runState := .haltedEnd })

/-- Within bounds, HOFO and a non-empty buffer stop a `Run` in HALTED_OUTPUT before any instruction; with HOFO 0 the
buffer never does (40_execution_cycle, sections 2 and 3). -/
def Obligations.RunStopsOnOutput : Prop :=
  ∀ s : State, s.runState = .running → s.ip < s.prog.length →
    (s.hofo = true → s.out ≠ [] → step s = .next { s with runState := .haltedOutput }) ∧
    (s.hofo = false ∨ s.out = [] → step s = executeOne s)

/-- The run of a halt-on-first-output launch never holds more than one digit, and holds exactly one when it stops in
HALTED_OUTPUT (40_execution_cycle, section 3, derived): the property each turn keeps. A stop in HALTED_END or FAULTED
may leave none. -/
def Obligations.FirstOutputRunHoldsOneDigit : Prop :=
  ∀ s t : State, s.runState = .running → s.hofo = true → s.out.length ≤ 1 → step s = .next t →
    t.hofo = true ∧ t.out.length ≤ 1 ∧ (t.runState = .haltedOutput → t.out.length = 1)

/-- R34: MATCH is 1 exactly when the output equals the program in length and in every element, and asking for it
changes nothing. -/
def Obligations.MatchIsExactEquality : Prop :=
  ∀ s : State,
    (s.matchOut = true ↔ s.out.length = s.prog.length ∧
      ∀ (k : Nat) (d : Digit), s.out[k]? = some d → s.prog[k]? = some (d.toNat : Int)) ∧
    (∀ rest : List Command, s.runState ≠ .running → s.registersHeld = true →
      s.commands = .matchesProgram :: rest → step s = .next { s with commands := rest })

/-- The fields of the STATUS word and the fault codes (10_state, section 5, decision D18; 60_exceptions, section 1,
decision D15). MATCH is shown where it has a value (assumption log 6). -/
def Obligations.StatusWordFields : Prop :=
  ∀ s : State,
    (s.statusWord.extractLsb' 0 3).toNat =
      (match s.runState with
        | .unloaded => 0 | .ready => 1 | .running => 2 | .haltedEnd => 3 | .haltedOutput => 4 | .faulted => 5) ∧
    s.statusWord.getLsbD 3 = s.hofo ∧
    (s.statusWord.extractLsb' 4 4).toNat =
      (match s.cause with
        | .none => 0 | .invalidProgramLength => 1 | .invalidOpcodeDigit => 2 | .invalidOperandDigit => 3
        | .reservedComboOperand => 4 | .fetchOutOfBounds => 5 | .operandFetchOutOfBounds => 6
        | .negativeShiftAmount => 7 | .negativeDividend => 8 | .oddIp => 9 | .outputOverflow => 10
        | .notLoaded => 11) ∧
    (s.registersHeld = true → s.statusWord.getLsbD 8 = s.matchOut) ∧
    (s.statusWord.getLsbD 9 = true ↔ s.out ≠ []) ∧
    (∀ k, 10 ≤ k → s.statusWord.getLsbD k = false)

/-- A host read of a field that holds a value gives it and has no side effect (10_state, section 5, decision D29;
20_memory, section 4). -/
def Obligations.HostReadsHaveNoEffect : Prop :=
  (∀ (s : State) (field : HostField) (v : HostValue) (rest : List Command), s.runState ≠ .running →
    hostRead field s = some v → s.commands = .read field :: rest → step s = .next { s with commands := rest }) ∧
    ∀ s : State, s.registersHeld = true →
      (∀ r, hostRead (.reg r) s = some (.word (s.reg r))) ∧ hostRead .ip s = some (.nat s.ip) ∧
      hostRead .progLen s = some (.nat s.prog.length) ∧ hostRead .outLen s = some (.nat s.out.length) ∧
      hostRead .status s = some (.statusWord s.statusWord) ∧
      (∀ (k : Nat) (h : k < s.prog.length), hostRead (.prog k) s = some (.element s.prog[k])) ∧
      (∀ (k : Nat) (h : k < s.out.length), hostRead (.out k) s = some (.digit s.out[k]))

/-- With no successful `Load`, or a failed one since, no register, no ip and no MATCH can be read: the model stops
rather than show the value it holds (10_state, section 8; 40_execution_cycle, section 2; decisions D19 and D20). That
holds of UNLOADED, after NOT_LOADED and after a failed `Load`; after a failed `Load` of program and buffer too. Which
states these are is read off STATE and CAUSE (assumption log 3 and 5). -/
def Obligations.NoValueBeforeLoad : Prop :=
  ∀ s : State,
    (s.registersHeld = false ↔
      s.runState = .unloaded ∨ s.cause = .invalidProgramLength ∨ s.cause = .notLoaded) ∧
    ∀ (cmd : Command) (rest : List Command), s.runState ≠ .running → s.commands = cmd :: rest →
      (s.registersHeld = false → (cmd = .matchesProgram ∨ cmd = .read .ip ∨ ∃ r, cmd = .read (.reg r)) →
        step s = .fault .noValue) ∧
      (s.cause = .invalidProgramLength → ∀ field, field ≠ .status → cmd = .read field →
        step s = .fault .noValue)

/-- A host read of an element beyond the end of the program or the buffer stops by a name of its own, where the
sequence holds a value (20_memory, section 1, gives the index ranges; the stop is the model's, assumption log 18). -/
def Obligations.ReadBeyondTheEndStops : Prop :=
  ∀ (s : State) (k : Nat) (rest : List Command), s.runState ≠ .running → s.buffersHeld = true →
    (s.commands = .read (.prog k) :: rest → s.prog.length ≤ k → step s = .fault .noSuchDigit) ∧
    (s.commands = .read (.out k) :: rest → s.out.length ≤ k → step s = .fault .noSuchDigit)

/-- With STATE RUNNING the host has no move: a pending command is neither taken nor dropped, and a command given all
the same is refused (40_execution_cycle, section 4, decision D29). -/
def Obligations.HostHasNoMoveWhileRunning : Prop :=
  ∀ s : State, s.runState = .running →
    (∀ cmd, issue cmd s = .refused .hostMoveWhileRunning) ∧
    ∀ t, step s = .next t → t.commands = s.commands

/-! ## The run-state machine and whole runs -/

/-- The transitions of STATE, and no other, each under its row's condition (40_execution_cycle, section 4; decision
D29): an instruction's step is the one `execute_one` makes, to FAULTED when that faults and else to RUNNING inside a
`Run` and to READY under `Step`. Where both halt tests hold, the two rows of section 4 both apply; that HALTED_END is
the one reported is section 2 with the spec's decision D31 (assumption log 16, unsafe). `Run(h)` sets HOFO to `h`
(section 2). With no command pending all state is kept (60_exceptions, section 5; the pending list is the model's,
assumption log 7). -/
def Obligations.RunStateTransitions : Prop :=
  ∀ s t : State, step s = .next t →
    (s.runState = .running ∧
      ((s.prog.length ≤ s.ip ∧ t.runState = .haltedEnd) ∨
        (s.ip < s.prog.length ∧ s.hofo = true ∧ s.out ≠ [] ∧ t.runState = .haltedOutput) ∨
        (s.ip < s.prog.length ∧ (s.hofo = false ∨ s.out = []) ∧ executeOne s = .next t ∧
          ((t.runState = .running ∧ t.cause = s.cause) ∨ (t.runState = .faulted ∧ t.cause ≠ .none))))) ∨
    (s.runState ≠ .running ∧ s.commands = [] ∧ t = s) ∨
    (s.runState ≠ .running ∧ ∃ cmd rest, s.commands = cmd :: rest ∧ t.commands = rest ∧
      match cmd with
      | .load p _ _ _ =>
        (p.length % 2 = 0 ∧ t.runState = .ready) ∨
          (p.length % 2 = 1 ∧ t.runState = .faulted ∧ t.cause = .invalidProgramLength)
      | .step =>
        (s.runState = .unloaded ∧ t.runState = .faulted ∧ t.cause = .notLoaded) ∨
          (s.runState = .faulted ∧ t = { s with commands := rest }) ∨
          ((s.runState = .ready ∨ s.runState = .haltedEnd ∨ s.runState = .haltedOutput) ∧
            ∃ u, executeOne { s with commands := rest } = .next u ∧
              ((u.runState = .faulted ∧ u.cause ≠ .none ∧ t = u) ∨
                (u.runState = s.runState ∧ u.cause = s.cause ∧ t = { u with runState := .ready })))
      | .run h =>
        (s.runState = .unloaded ∧ t.runState = .faulted ∧ t.cause = .notLoaded) ∨
          (s.runState = .faulted ∧ t = { s with commands := rest }) ∨
          ((s.runState = .ready ∨ s.runState = .haltedEnd ∨ s.runState = .haltedOutput) ∧
            t = { s with hofo := h, runState := .running, commands := rest })
      | .matchesProgram => t = { s with commands := rest }
      | .read _ => t = { s with commands := rest })

/-- No transition but a `Load` changes program memory (70_reset_and_hazards, section 3; 20_memory, section 6); the
buffer only grows at its end, by at most one digit (10_state, section 4); and no transition at all changes the
parameters, which State holds by the model's own choice (assumption log 2, DESIGN CHOICE). -/
def Obligations.ProgramImmutableAfterLoad : Prop :=
  ∀ s t : State, step s = .next t → t.params = s.params ∧
    ((s.runState = .running ∨ ∀ p a b c rest, s.commands ≠ .load p a b c :: rest) →
      t.prog = s.prog ∧ (t.out = s.out ∨ ∃ d, t.out = s.out ++ [d]))

/-- A `Run` that ends under fuel is a number of steps of the machine, no more than the fuel, each of the turns before
the last in RUNNING (40_execution_cycle, section 3; 70_reset_and_hazards, section 4). -/
def Obligations.RunLoopIsMachineSteps : Prop :=
  ∀ (fuel : Nat) (s t : State), runLoop fuel s = .ended t →
    t.runState ≠ .running ∧ ∃ k, k ≤ fuel ∧ core.run k s = .next t ∧
      ∀ j u, j < k → core.run j s = .next u → u.runState = .running

/-- A run has at most one end, whatever the fuel, and more fuel does not lose it (70_reset_and_hazards, section 4,
derived). -/
def Obligations.RunEndIsUnique : Prop :=
  ∀ (m n : Nat) (s t : State), runLoop m s = .ended t →
    (m ≤ n → runLoop n s = .ended t) ∧ ∀ u, runLoop n s = .ended u → u = t

/-- A run ends in HALTED_END, HALTED_OUTPUT or FAULTED and in no other way (40_execution_cycle, section 3,
decision D25). -/
def Obligations.RunEndsInThreeWays : Prop :=
  ∀ (fuel : Nat) (s t : State), s.runState = .running → runLoop fuel s = .ended t →
    t.final = true ∨ t.runState = .faulted

/-- An instruction placed by `withFetchWord` is the one the very next step runs, for every instruction and every state
in which `ODD_IP` does not fault at its ip (the model's own interface, assumption log 11 and 13). -/
def Obligations.PlacedWordRunsNext : Prop :=
  ∀ (i : Instr) (s : State) (nbits : Nat), 6 ≤ nbits → (s.params.oddIp = .execute ∨ s.ip % 2 = 0) →
    step (s.withFetchWord nbits (packed i).toNat) = exec i (s.withFetchWord nbits (packed i).toNat) ∧
      (s.withFetchWord nbits (packed i).toNat).prog.length % 2 = 0

/-! ## Reset and invariants -/

/-- What the spec gives at power-on (70_reset_and_hazards, section 1, decision D19): STATE, CAUSE, HOFO, program and
buffer, and the default parameters of 00_scope, section 4; no register and no ip can be read. The values stored in A,
B, C and ip there are the model's (assumption log 3) and are not stated. Until the host issues a command the block
keeps this state (assumption log 7 and 13). -/
def Obligations.PowerOnState : Prop :=
  State.reset.runState = .unloaded ∧ State.reset.cause = .none ∧ State.reset.hofo = false ∧
    State.reset.prog = [] ∧ State.reset.out = [] ∧
    State.reset.params = { negDiv := .floor, oddIp := .execute, outCap := none, progMax := none } ∧
    (∀ r, hostRead (.reg r) State.reset = none) ∧ hostRead .ip State.reset = none ∧
    step State.reset = .next State.reset

/-- Every step keeps the fields of the state consistent: CAUSE with STATE, even program length, the bounds of `ip`, of
the buffer and of the program, and what each halted state means (10_state, sections 2, 4, 5 and 8; several of its
rules are marked as decisions or derived). -/
def Obligations.StepKeepsConsistent : Prop :=
  ∀ s t : State, s.Consistent → step s = .next t → t.Consistent

/-- Every step keeps the registers non-negative, when every `Load` the host still issues brings non-negative values
(10_state, section 1, R23 marked derived). Consistency rules out states no run reaches. -/
def Obligations.StepKeepsRegistersNonneg : Prop :=
  ∀ s t : State, s.Consistent → s.Nonneg → step s = .next t → t.Nonneg

/-- The power-on state meets both invariants. -/
def Obligations.ResetMeetsInvariants : Prop :=
  State.reset.Consistent ∧ State.reset.Nonneg
end

