-- ==== Sys2Proof/Laws/State.lean ====
section
/-! SUPPORT. One lemma per field per state update, so that no later proof unfolds a record update. -/

namespace Sys2Proof.Machine

variable (s : State)


@[simp] theorem State.setReg_a_a (v : Word) : (s.setReg .a v).a = v := rfl
@[simp] theorem State.setReg_b_a (v : Word) : (s.setReg .b v).a = s.a := rfl
@[simp] theorem State.setReg_c_a (v : Word) : (s.setReg .c v).a = s.a := rfl
@[simp] theorem State.setReg_a_b (v : Word) : (s.setReg .a v).b = s.b := rfl
@[simp] theorem State.setReg_b_b (v : Word) : (s.setReg .b v).b = v := rfl
@[simp] theorem State.setReg_c_b (v : Word) : (s.setReg .c v).b = s.b := rfl
@[simp] theorem State.setReg_a_c (v : Word) : (s.setReg .a v).c = s.c := rfl
@[simp] theorem State.setReg_b_c (v : Word) : (s.setReg .b v).c = s.c := rfl
@[simp] theorem State.setReg_c_c (v : Word) : (s.setReg .c v).c = v := rfl
@[simp] theorem State.setReg_ip (r : Reg) (v : Word) : (s.setReg r v).ip = s.ip := by cases r <;> rfl
@[simp] theorem State.setReg_prog (r : Reg) (v : Word) : (s.setReg r v).prog = s.prog := by cases r <;> rfl
@[simp] theorem State.setReg_out (r : Reg) (v : Word) : (s.setReg r v).out = s.out := by cases r <;> rfl
@[simp] theorem State.setReg_runState (r : Reg) (v : Word) : (s.setReg r v).runState = s.runState := by cases r <;> rfl
@[simp] theorem State.setReg_cause (r : Reg) (v : Word) : (s.setReg r v).cause = s.cause := by cases r <;> rfl
@[simp] theorem State.setReg_hofo (r : Reg) (v : Word) : (s.setReg r v).hofo = s.hofo := by cases r <;> rfl
@[simp] theorem State.setReg_params (r : Reg) (v : Word) : (s.setReg r v).params = s.params := by cases r <;> rfl
@[simp] theorem State.setReg_commands (r : Reg) (v : Word) : (s.setReg r v).commands = s.commands := by cases r <;> rfl
@[simp] theorem State.setReg_freeDraws (r : Reg) (v : Word) : (s.setReg r v).freeDraws = s.freeDraws := by cases r <;> rfl

@[simp] theorem State.setIp_a (n : Nat) : (s.setIp n).a = s.a := rfl
@[simp] theorem State.setIp_b (n : Nat) : (s.setIp n).b = s.b := rfl
@[simp] theorem State.setIp_c (n : Nat) : (s.setIp n).c = s.c := rfl
@[simp] theorem State.setIp_ip (n : Nat) : (s.setIp n).ip = n := rfl
@[simp] theorem State.setIp_prog (n : Nat) : (s.setIp n).prog = s.prog := rfl
@[simp] theorem State.setIp_out (n : Nat) : (s.setIp n).out = s.out := rfl
@[simp] theorem State.setIp_runState (n : Nat) : (s.setIp n).runState = s.runState := rfl
@[simp] theorem State.setIp_cause (n : Nat) : (s.setIp n).cause = s.cause := rfl
@[simp] theorem State.setIp_hofo (n : Nat) : (s.setIp n).hofo = s.hofo := rfl
@[simp] theorem State.setIp_params (n : Nat) : (s.setIp n).params = s.params := rfl
@[simp] theorem State.setIp_commands (n : Nat) : (s.setIp n).commands = s.commands := rfl
@[simp] theorem State.setIp_freeDraws (n : Nat) : (s.setIp n).freeDraws = s.freeDraws := rfl

@[simp] theorem State.advance_a : (s.advance).a = s.a := rfl
@[simp] theorem State.advance_b : (s.advance).b = s.b := rfl
@[simp] theorem State.advance_c : (s.advance).c = s.c := rfl
@[simp] theorem State.advance_ip : (s.advance).ip = s.ip + 2 := rfl
@[simp] theorem State.advance_prog : (s.advance).prog = s.prog := rfl
@[simp] theorem State.advance_out : (s.advance).out = s.out := rfl
@[simp] theorem State.advance_runState : (s.advance).runState = s.runState := rfl
@[simp] theorem State.advance_cause : (s.advance).cause = s.cause := rfl
@[simp] theorem State.advance_hofo : (s.advance).hofo = s.hofo := rfl
@[simp] theorem State.advance_params : (s.advance).params = s.params := rfl
@[simp] theorem State.advance_commands : (s.advance).commands = s.commands := rfl
@[simp] theorem State.advance_freeDraws : (s.advance).freeDraws = s.freeDraws := rfl

@[simp] theorem State.outAppend_a (d : Digit) : (s.outAppend d).a = s.a := rfl
@[simp] theorem State.outAppend_b (d : Digit) : (s.outAppend d).b = s.b := rfl
@[simp] theorem State.outAppend_c (d : Digit) : (s.outAppend d).c = s.c := rfl
@[simp] theorem State.outAppend_ip (d : Digit) : (s.outAppend d).ip = s.ip := rfl
@[simp] theorem State.outAppend_prog (d : Digit) : (s.outAppend d).prog = s.prog := rfl
@[simp] theorem State.outAppend_out (d : Digit) : (s.outAppend d).out = s.out ++ [d] := rfl
@[simp] theorem State.outAppend_runState (d : Digit) : (s.outAppend d).runState = s.runState := rfl
@[simp] theorem State.outAppend_cause (d : Digit) : (s.outAppend d).cause = s.cause := rfl
@[simp] theorem State.outAppend_hofo (d : Digit) : (s.outAppend d).hofo = s.hofo := rfl
@[simp] theorem State.outAppend_params (d : Digit) : (s.outAppend d).params = s.params := rfl
@[simp] theorem State.outAppend_commands (d : Digit) : (s.outAppend d).commands = s.commands := rfl
@[simp] theorem State.outAppend_freeDraws (d : Digit) : (s.outAppend d).freeDraws = s.freeDraws := rfl

@[simp] theorem State.setRunState_a (r : RunState) : (s.setRunState r).a = s.a := rfl
@[simp] theorem State.setRunState_b (r : RunState) : (s.setRunState r).b = s.b := rfl
@[simp] theorem State.setRunState_c (r : RunState) : (s.setRunState r).c = s.c := rfl
@[simp] theorem State.setRunState_ip (r : RunState) : (s.setRunState r).ip = s.ip := rfl
@[simp] theorem State.setRunState_prog (r : RunState) : (s.setRunState r).prog = s.prog := rfl
@[simp] theorem State.setRunState_out (r : RunState) : (s.setRunState r).out = s.out := rfl
@[simp] theorem State.setRunState_runState (r : RunState) : (s.setRunState r).runState = r := rfl
@[simp] theorem State.setRunState_cause (r : RunState) : (s.setRunState r).cause = s.cause := rfl
@[simp] theorem State.setRunState_hofo (r : RunState) : (s.setRunState r).hofo = s.hofo := rfl
@[simp] theorem State.setRunState_params (r : RunState) : (s.setRunState r).params = s.params := rfl
@[simp] theorem State.setRunState_commands (r : RunState) : (s.setRunState r).commands = s.commands := rfl
@[simp] theorem State.setRunState_freeDraws (r : RunState) : (s.setRunState r).freeDraws = s.freeDraws := rfl

@[simp] theorem State.setHofo_a (h : Bool) : (s.setHofo h).a = s.a := rfl
@[simp] theorem State.setHofo_b (h : Bool) : (s.setHofo h).b = s.b := rfl
@[simp] theorem State.setHofo_c (h : Bool) : (s.setHofo h).c = s.c := rfl
@[simp] theorem State.setHofo_ip (h : Bool) : (s.setHofo h).ip = s.ip := rfl
@[simp] theorem State.setHofo_prog (h : Bool) : (s.setHofo h).prog = s.prog := rfl
@[simp] theorem State.setHofo_out (h : Bool) : (s.setHofo h).out = s.out := rfl
@[simp] theorem State.setHofo_runState (h : Bool) : (s.setHofo h).runState = s.runState := rfl
@[simp] theorem State.setHofo_cause (h : Bool) : (s.setHofo h).cause = s.cause := rfl
@[simp] theorem State.setHofo_hofo (h : Bool) : (s.setHofo h).hofo = h := rfl
@[simp] theorem State.setHofo_params (h : Bool) : (s.setHofo h).params = s.params := rfl
@[simp] theorem State.setHofo_commands (h : Bool) : (s.setHofo h).commands = s.commands := rfl
@[simp] theorem State.setHofo_freeDraws (h : Bool) : (s.setHofo h).freeDraws = s.freeDraws := rfl

@[simp] theorem State.setCommands_a (cs : List Command) : (s.setCommands cs).a = s.a := rfl
@[simp] theorem State.setCommands_b (cs : List Command) : (s.setCommands cs).b = s.b := rfl
@[simp] theorem State.setCommands_c (cs : List Command) : (s.setCommands cs).c = s.c := rfl
@[simp] theorem State.setCommands_ip (cs : List Command) : (s.setCommands cs).ip = s.ip := rfl
@[simp] theorem State.setCommands_prog (cs : List Command) : (s.setCommands cs).prog = s.prog := rfl
@[simp] theorem State.setCommands_out (cs : List Command) : (s.setCommands cs).out = s.out := rfl
@[simp] theorem State.setCommands_runState (cs : List Command) : (s.setCommands cs).runState = s.runState := rfl
@[simp] theorem State.setCommands_cause (cs : List Command) : (s.setCommands cs).cause = s.cause := rfl
@[simp] theorem State.setCommands_hofo (cs : List Command) : (s.setCommands cs).hofo = s.hofo := rfl
@[simp] theorem State.setCommands_params (cs : List Command) : (s.setCommands cs).params = s.params := rfl
@[simp] theorem State.setCommands_commands (cs : List Command) : (s.setCommands cs).commands = cs := rfl
@[simp] theorem State.setCommands_freeDraws (cs : List Command) : (s.setCommands cs).freeDraws = s.freeDraws := rfl

@[simp] theorem State.enterFault_a (f : Cause) : (s.enterFault f).a = s.a := rfl
@[simp] theorem State.enterFault_b (f : Cause) : (s.enterFault f).b = s.b := rfl
@[simp] theorem State.enterFault_c (f : Cause) : (s.enterFault f).c = s.c := rfl
@[simp] theorem State.enterFault_ip (f : Cause) : (s.enterFault f).ip = s.ip := rfl
@[simp] theorem State.enterFault_prog (f : Cause) : (s.enterFault f).prog = s.prog := rfl
@[simp] theorem State.enterFault_out (f : Cause) : (s.enterFault f).out = s.out := rfl
@[simp] theorem State.enterFault_runState (f : Cause) : (s.enterFault f).runState = .faulted := rfl
@[simp] theorem State.enterFault_cause (f : Cause) : (s.enterFault f).cause = f := rfl
@[simp] theorem State.enterFault_hofo (f : Cause) : (s.enterFault f).hofo = s.hofo := rfl
@[simp] theorem State.enterFault_params (f : Cause) : (s.enterFault f).params = s.params := rfl
@[simp] theorem State.enterFault_commands (f : Cause) : (s.enterFault f).commands = s.commands := rfl
@[simp] theorem State.enterFault_freeDraws (f : Cause) : (s.enterFault f).freeDraws = s.freeDraws := rfl

@[simp] theorem State.loaded_a (p : List Int) (a b c : Word) : (s.loaded p a b c).a = a := rfl
@[simp] theorem State.loaded_b (p : List Int) (a b c : Word) : (s.loaded p a b c).b = b := rfl
@[simp] theorem State.loaded_c (p : List Int) (a b c : Word) : (s.loaded p a b c).c = c := rfl
@[simp] theorem State.loaded_ip (p : List Int) (a b c : Word) : (s.loaded p a b c).ip = 0 := rfl
@[simp] theorem State.loaded_prog (p : List Int) (a b c : Word) : (s.loaded p a b c).prog = p := rfl
@[simp] theorem State.loaded_out (p : List Int) (a b c : Word) : (s.loaded p a b c).out = [] := rfl
@[simp] theorem State.loaded_runState (p : List Int) (a b c : Word) : (s.loaded p a b c).runState = .ready := rfl
@[simp] theorem State.loaded_cause (p : List Int) (a b c : Word) : (s.loaded p a b c).cause = .none := rfl
@[simp] theorem State.loaded_hofo (p : List Int) (a b c : Word) : (s.loaded p a b c).hofo = false := rfl
@[simp] theorem State.loaded_params (p : List Int) (a b c : Word) : (s.loaded p a b c).params = s.params := rfl
@[simp] theorem State.loaded_commands (p : List Int) (a b c : Word) : (s.loaded p a b c).commands = s.commands := rfl
@[simp] theorem State.loaded_freeDraws (p : List Int) (a b c : Word) : (s.loaded p a b c).freeDraws = s.freeDraws := rfl

@[simp] theorem State.reg_a : s.reg .a = s.a := rfl
@[simp] theorem State.reg_b : s.reg .b = s.b := rfl
@[simp] theorem State.reg_c : s.reg .c = s.c := rfl

/-- A read after a write of the same register gives the value written. -/
@[simp] theorem State.reg_setReg_same (r : Reg) (v : Word) : (s.setReg r v).reg r = v := by cases r <;> rfl

/-- A write of one register leaves the others alone (10_state R20: they do not alias). -/
theorem State.reg_setReg_other {r q : Reg} (h : q ≠ r) (v : Word) : (s.setReg r v).reg q = s.reg q := by
  cases r <;> cases q <;> first | rfl | exact absurd rfl h

@[simp] theorem State.reg_advance (r : Reg) : s.advance.reg r = s.reg r := by cases r <;> rfl
@[simp] theorem State.reg_setIp (n : Nat) (r : Reg) : (s.setIp n).reg r = s.reg r := by cases r <;> rfl
@[simp] theorem State.reg_outAppend (d : Digit) (r : Reg) : (s.outAppend d).reg r = s.reg r := by cases r <;> rfl
@[simp] theorem State.reg_setRunState (x : RunState) (r : Reg) : (s.setRunState x).reg r = s.reg r := by cases r <;> rfl
@[simp] theorem State.reg_setHofo (h : Bool) (r : Reg) : (s.setHofo h).reg r = s.reg r := by cases r <;> rfl
@[simp] theorem State.reg_setCommands (cs : List Command) (r : Reg) : (s.setCommands cs).reg r = s.reg r := by
  cases r <;> rfl
@[simp] theorem State.reg_enterFault (f : Cause) (r : Reg) : (s.enterFault f).reg r = s.reg r := by cases r <;> rfl

@[simp] theorem State.failedLoad_runState : s.failedLoad.runState = .faulted := rfl
@[simp] theorem State.failedLoad_cause : s.failedLoad.cause = .invalidProgramLength := rfl
@[simp] theorem State.failedLoad_hofo : s.failedLoad.hofo = false := rfl
@[simp] theorem State.failedLoad_params : s.failedLoad.params = s.params := rfl
@[simp] theorem State.failedLoad_commands : s.failedLoad.commands = s.commands := rfl
@[simp] theorem State.failedLoad_freeDraws : s.failedLoad.freeDraws = s.freeDraws + 3 := rfl
@[simp] theorem State.failedLoad_registersHeld : s.failedLoad.registersHeld = false := rfl
@[simp] theorem State.failedLoad_buffersHeld : s.failedLoad.buffersHeld = false := rfl

end Sys2Proof.Machine
end

