-- ==== Sys2Proof/Laws/Ops.lean ====
section
/-! SUPPORT. What each shared operation can do, said once. -/

namespace Sys2Proof.Machine

theorem raise_eq (f : Cause) (s : State) : raise f s = .next (s.enterFault f) := rfl

/-- A combo operand resolves to a literal of two bits or to a register, or raises the reserved-operand fault. -/
theorem comboValue_cases {o : Combo} {s : State} {v : Word} (h : comboValue o s = .ok v) :
    (∃ w, o = .lit w ∧ v = w.setWidth 64) ∨ ∃ r, o = .reg r ∧ v = s.reg r := by
  cases o with
  | lit w => exact .inl ⟨w, rfl, (Except.ok.inj h).symm⟩
  | reg r => exact .inr ⟨r, rfl, (Except.ok.inj h).symm⟩
  | reserved => cases h

theorem comboValue_error {o : Combo} {s : State} {f : Cause} (h : comboValue o s = .error f) :
    o = .reserved ∧ f = .reservedComboOperand := by
  cases o with
  | lit w => cases h
  | reg r => cases h
  | reserved => exact ⟨rfl, (Except.error.inj h).symm⟩

/-- A quotient by a power of two lies between 0 and its dividend. -/
theorem floorDiv_range (a : Int) (s : Nat) (h : 0 ≤ a) : 0 ≤ floorDiv a s ∧ floorDiv a s ≤ a :=
  ⟨Int.ediv_nonneg h (Int.natCast_nonneg _), Int.ediv_le_self _ h⟩

/-- A negative dividend's floor quotient lies between the dividend and -1. -/
theorem floorDiv_range_neg (a : Int) (s : Nat) (h : a < 0) : a ≤ floorDiv a s ∧ floorDiv a s ≤ -1 := by
  have hp : (0 : Int) < ((2 ^ s : Nat) : Int) := Int.natCast_pos.mpr (Nat.two_pow_pos s)
  constructor
  · exact (Int.le_ediv_iff_mul_le hp).mpr (by nlinarith)
  · exact Int.le_sub_one_of_lt ((Int.ediv_lt_iff_lt_mul hp).mpr (by rw [Int.zero_mul]; exact h))

/-- Truncation toward zero of a negative dividend is the negated floor quotient of its magnitude (00_scope R11). -/
theorem truncDiv_neg (a : Int) (s : Nat) : truncDiv a s = -(truncDiv (-a) s) := by
  simp [truncDiv, Int.neg_tdiv]

theorem truncDiv_nonneg (a : Int) (s : Nat) (h : 0 ≤ a) : truncDiv a s = floorDiv a s :=
  Int.tdiv_eq_ediv_of_nonneg h

/-- From 64 on, the exponent no longer changes the floor quotient of a 64-bit value. -/
theorem floorDiv_cap (a : Word) (n : Nat) : floorDiv a.toInt (min n 64) = floorDiv a.toInt n := by
  rcases Nat.le_total n 64 with hn | hn
  · rw [Nat.min_eq_left hn]
  · rw [Nat.min_eq_right hn]
    have hlt : a.toInt < 2 ^ 63 := BitVec.toInt_lt
    have hge : -2 ^ 63 ≤ a.toInt := BitVec.le_toInt a
    have hpow : ((2 ^ 64 : Nat) : Int) ≤ ((2 ^ n : Nat) : Int) :=
      Int.ofNat_le.mpr (Nat.pow_le_pow_right (by decide) hn)
    have h64 : ((2 ^ 64 : Nat) : Int) = 2 ^ 64 := by norm_num
    have huge : ∀ d : Int, 2 ^ 64 ≤ d → a.toInt / d = if 0 ≤ a.toInt then 0 else -1 := by
      intro d hd
      split
      · exact Int.ediv_eq_zero_of_lt ‹_› (by omega)
      · exact Int.ediv_eq_neg_one_of_neg_of_le (by omega) (by omega)
    simp only [floorDiv]
    rw [huge _ (by omega), huge _ (by omega)]

/-- From 64 on, the exponent no longer changes the truncated quotient of a 64-bit value. -/
theorem truncDiv_cap (a : Word) (n : Nat) : truncDiv a.toInt (min n 64) = truncDiv a.toInt n := by
  rcases Nat.le_total n 64 with hn | hn
  · rw [Nat.min_eq_left hn]
  · rw [Nat.min_eq_right hn]
    have hlt : a.toInt < 2 ^ 63 := BitVec.toInt_lt
    have hge : -2 ^ 63 ≤ a.toInt := BitVec.le_toInt a
    have hpow : ((2 ^ 64 : Nat) : Int) ≤ ((2 ^ n : Nat) : Int) :=
      Int.ofNat_le.mpr (Nat.pow_le_pow_right (by decide) hn)
    have h64 : ((2 ^ 64 : Nat) : Int) = 2 ^ 64 := by norm_num
    have huge : ∀ d : Int, 2 ^ 64 ≤ d → a.toInt.tdiv d = 0 := by
      intro d hd
      rcases lt_or_ge a.toInt 0 with h | h
      · rw [← Int.neg_neg a.toInt, Int.neg_tdiv, Int.tdiv_eq_ediv_of_nonneg (by omega),
          Int.ediv_eq_zero_of_lt (by omega) (by omega), Int.neg_zero]
      · rw [Int.tdiv_eq_ediv_of_nonneg h, Int.ediv_eq_zero_of_lt h (by omega)]
    simp only [truncDiv]
    rw [huge _ (by omega), huge _ (by omega)]

/-- A 64-bit value no larger in magnitude than a signed 64-bit value reads back as itself. -/
theorem toInt_ofInt_of_range (q : Int) (h1 : -2 ^ 63 ≤ q) (h2 : q < 2 ^ 63) : (BitVec.ofInt 64 q).toInt = q := by
  rw [BitVec.toInt_ofInt]
  exact Int.bmod_eq_of_le (by norm_num; omega) (by norm_num; omega)

theorem floorDiv_word_range (a : Word) (n : Nat) : -2 ^ 63 ≤ floorDiv a.toInt n ∧ floorDiv a.toInt n < 2 ^ 63 := by
  have hlt : a.toInt < 2 ^ 63 := BitVec.toInt_lt
  have hge : -2 ^ 63 ≤ a.toInt := BitVec.le_toInt a
  rcases lt_or_ge a.toInt 0 with h | h
  · have := floorDiv_range_neg _ n h; omega
  · have := floorDiv_range _ n h; omega

/-- The truncated quotient of a 64-bit value, but for sign, is a floor quotient, and stays in range. -/
theorem truncDiv_word_range (a : Word) (n : Nat) : -2 ^ 63 ≤ truncDiv a.toInt n ∧ truncDiv a.toInt n < 2 ^ 63 := by
  have hlt : a.toInt < 2 ^ 63 := BitVec.toInt_lt
  have hge : -2 ^ 63 ≤ a.toInt := BitVec.le_toInt a
  rcases lt_or_ge a.toInt 0 with h | h
  · rw [truncDiv_neg, truncDiv_nonneg _ _ (by omega)]
    have := floorDiv_range (-a.toInt) n (by omega); omega
  · rw [truncDiv_nonneg _ _ h]
    have := floorDiv_range _ n h; omega

/-- The capped exponent divides as the whole amount does: `shr` floors exactly (41_shift_divide R133). -/
theorem shrFloor_toInt (a s : Word) :
    (BitVec.ofInt 64 (floorDiv a.toInt (shiftCount s))).toInt = floorDiv a.toInt s.toNat := by
  have h := floorDiv_word_range a s.toNat
  rw [shiftCount, floorDiv_cap, toInt_ofInt_of_range _ h.1 h.2]

/-- The capped exponent divides as the whole amount does: `shr` truncates exactly (41_shift_divide R133). -/
theorem shrTrunc_toInt (a s : Word) :
    (BitVec.ofInt 64 (truncDiv a.toInt (shiftCount s))).toInt = truncDiv a.toInt s.toNat := by
  have h := truncDiv_word_range a s.toNat
  rw [shiftCount, truncDiv_cap, toInt_ofInt_of_range _ h.1 h.2]

/-- Everything `shr` can do (41_shift_divide R133). -/
theorem shr_spec (nd : NegDiv) (a s : Word) :
    (s.toInt < 0 ∧ shr nd a s = .error .negativeShiftAmount) ∨
    (0 ≤ s.toInt ∧ (0 ≤ a.toInt ∨ nd = .floor) ∧ ∃ q, shr nd a s = .ok q ∧ q.toInt = floorDiv a.toInt s.toNat) ∨
    (0 ≤ s.toInt ∧ a.toInt < 0 ∧ nd = .trunc ∧ ∃ q, shr nd a s = .ok q ∧ q.toInt = truncDiv a.toInt s.toNat) ∨
    (0 ≤ s.toInt ∧ a.toInt < 0 ∧ nd = .fault ∧ shr nd a s = .error .negativeDividend) := by
  by_cases hs : s.toInt < 0
  · exact .inl ⟨hs, by simp [shr, hs]⟩
  · by_cases ha : 0 ≤ a.toInt
    · exact .inr (.inl ⟨by omega, .inl ha, _, by simp only [shr, if_neg hs, if_pos ha], shrFloor_toInt a s⟩)
    · cases nd with
      | floor => exact .inr (.inl ⟨by omega, .inr rfl, _, by simp only [shr, if_neg hs, if_neg ha], shrFloor_toInt a s⟩)
      | trunc =>
        exact .inr (.inr (.inl ⟨by omega, by omega, rfl, _, by simp only [shr, if_neg hs, if_neg ha],
          shrTrunc_toInt a s⟩))
      | fault => exact .inr (.inr (.inr ⟨by omega, by omega, rfl, by simp only [shr, if_neg hs, if_neg ha]⟩))

/-- What a shift instruction can do (41_shift_divide R134). -/
theorem shiftDivide_cases (dst : Reg) (src : Combo) (s : State) :
    (∃ amount q, comboValue src s = .ok amount ∧ shr s.params.negDiv s.a amount = .ok q ∧
      shiftDivide dst src s = .next (s.setReg dst q).advance) ∨
    (src = .reserved ∧ shiftDivide dst src s = .next (s.enterFault .reservedComboOperand)) ∨
    (∃ amount f, comboValue src s = .ok amount ∧ shr s.params.negDiv s.a amount = .error f ∧
      shiftDivide dst src s = .next (s.enterFault f)) := by
  cases hc : comboValue src s with
  | error f =>
    obtain ⟨rfl, rfl⟩ := comboValue_error hc
    exact .inr (.inl ⟨rfl, rfl⟩)
  | ok amount =>
    cases hq : shr s.params.negDiv s.a amount with
    | error f => exact .inr (.inr ⟨amount, f, rfl, hq, by simp [shiftDivide, hc, hq, raise_eq]⟩)
    | ok q => exact .inl ⟨amount, q, rfl, hq, by simp [shiftDivide, hc, hq]⟩

/-- The faults `shr` raises. -/
theorem shr_error {nd : NegDiv} {a s : Word} {f : Cause} (h : shr nd a s = .error f) :
    f = .negativeShiftAmount ∨ f = .negativeDividend := by
  rcases shr_spec nd a s with ⟨-, e⟩ | ⟨-, -, q, e, -⟩ | ⟨-, -, -, q, e, -⟩ | ⟨-, -, -, e⟩ <;> rw [e] at h <;> cases h
  · exact .inl rfl
  · exact .inr rfl

/-- Fetching succeeds exactly within the program, at an index `ODD_IP` allows (40_execution_cycle R100). -/
theorem fetch_ok {s : State} {op d : Int} (h : fetch s = .ok (op, d)) :
    s.prog[s.ip]? = some op ∧ s.prog[s.ip + 1]? = some d ∧ s.oddIpFaults = false := by
  simp only [fetch, State.memRead] at h
  split at h
  · cases h
  · rename_i op' hop
    split at h
    · cases h
    · rename_i ho
      split at h
      · cases h
      · rename_i d' hd
        cases h
        exact ⟨hop, hd, by simpa using ho⟩

/-- A successful fetch leaves room for the advance by two (10_state R26). -/
theorem fetch_ok_bound {s : State} {p : Int × Int} (h : fetch s = .ok p) : s.ip + 2 ≤ s.prog.length := by
  obtain ⟨-, h2, -⟩ := fetch_ok (op := p.1) (d := p.2) h
  have := (List.getElem?_eq_some_iff.mp h2).1
  omega

theorem fetchDecode_ok {s : State} {i : Instr} (h : fetchDecode s = .ok i) :
    ∃ op d, fetch s = .ok (op, d) ∧ decode op d = .ok i := by
  simp only [fetchDecode] at h
  split at h
  · cases h
  · rename_i op d hf
    split at h
    · cases h
    · rename_i j hd
      cases h
      exact ⟨op, d, hf, hd⟩

/-- The faults of fetch and decode (60_exceptions R162). -/
def isFetchFault (f : Cause) : Prop :=
  f = .fetchOutOfBounds ∨ f = .oddIp ∨ f = .operandFetchOutOfBounds ∨ f = .invalidOpcodeDigit ∨
    f = .invalidOperandDigit

theorem fetch_error {s : State} {f : Cause} (h : fetch s = .error f) :
    f = .fetchOutOfBounds ∨ f = .oddIp ∨ f = .operandFetchOutOfBounds := by
  simp only [fetch] at h
  split at h
  · cases h; exact .inl rfl
  · split at h
    · cases h; exact .inr (.inl rfl)
    · split at h
      · cases h; exact .inr (.inr rfl)
      · cases h

theorem fetchDecode_error {s : State} {f : Cause} (h : fetchDecode s = .error f) : isFetchFault f := by
  simp only [fetchDecode] at h
  split at h
  · rename_i g hg
    cases h
    rcases fetch_error hg with h | h | h
    · exact .inl h
    · exact .inr (.inl h)
    · exact .inr (.inr (.inl h))
  · split at h
    · rename_i e _
      cases h
      cases e
      · exact .inr (.inr (.inr (.inl rfl)))
      · exact .inr (.inr (.inr (.inr rfl)))
    · cases h

/-- The faults an instruction raises (60_exceptions R163). -/
def isExecFault (f : Cause) : Prop :=
  f = .reservedComboOperand ∨ f = .negativeShiftAmount ∨ f = .negativeDividend ∨ f = .outputOverflow

/-- Everything an instruction can do to the state. -/
inductive ExecEffect (s : State) : State → Prop where
  | faulted (f : Cause) (h : isExecFault f) : ExecEffect s (s.enterFault f)
  | wrote (r : Reg) (v : Word) : ExecEffect s (s.setReg r v).advance
  | jumped (d : Digit) : ExecEffect s (s.setIp d.toNat)
  | fellThrough : ExecEffect s s.advance
  | emitted (d : Digit) (h : s.outFull = false) : ExecEffect s (s.outAppend d).advance

theorem literalValue_toNat (d : Digit) : (literalValue d).toNat = d.toNat := by
  simp only [literalValue, BitVec.toNat_setWidth]
  exact Nat.mod_eq_of_lt (by omega)

theorem shiftDivide_effect {dst : Reg} {src : Combo} {s t : State} (h : shiftDivide dst src s = .next t) :
    ExecEffect s t := by
  rcases shiftDivide_cases dst src s with ⟨_, q, -, -, e⟩ | ⟨-, e⟩ | ⟨_, f, -, hf, e⟩ <;> rw [e] at h <;> cases h
  · exact .wrote dst q
  · exact .faulted _ (.inl rfl)
  · exact .faulted _ ((shr_error hf).elim (fun h => .inr (.inl h)) fun h => .inr (.inr (.inl h)))

theorem exec_effect {i : Instr} {s t : State} (h : exec i s = .next t) : ExecEffect s t := by
  cases i with
  | adv src => exact shiftDivide_effect h
  | bdv src => exact shiftDivide_effect h
  | cdv src => exact shiftDivide_effect h
  | bxl lit => cases h; exact .wrote .b _
  | bxc d => cases h; exact .wrote .b _
  | bst src =>
    simp only [exec, execBst] at h
    split at h
    · rename_i f hf
      obtain ⟨-, rfl⟩ := comboValue_error hf
      cases h
      exact .faulted _ (.inl rfl)
    · cases h; exact .wrote .b _
  | jnz d =>
    simp only [exec, execJnz] at h
    split at h
    · cases h; rw [literalValue_toNat]; exact .jumped d
    · cases h; exact .fellThrough
  | out src =>
    simp only [exec, execOut] at h
    split at h
    · rename_i f hf
      obtain ⟨-, rfl⟩ := comboValue_error hf
      cases h
      exact .faulted _ (.inl rfl)
    · split at h
      · cases h; exact .faulted _ (.inr (.inr (.inr rfl)))
      · rename_i hfull
        cases h
        exact .emitted _ (by simpa using hfull)

/-- `execute_one` raises a fault of fetch or decode, or runs the instruction it decoded with room for an advance. -/
theorem executeOne_cases (s : State) :
    (∃ f, isFetchFault f ∧ executeOne s = .next (s.enterFault f)) ∨
    (∃ i, fetchDecode s = .ok i ∧ s.ip + 2 ≤ s.prog.length ∧ executeOne s = exec i s) := by
  cases h : fetchDecode s with
  | error f => exact .inl ⟨f, fetchDecode_error h, by simp [executeOne, h, raise_eq]⟩
  | ok i =>
    obtain ⟨op, d, hf, -⟩ := fetchDecode_ok h
    exact .inr ⟨i, rfl, fetch_ok_bound hf, by simp [executeOne, h]⟩

end Sys2Proof.Machine
end

