-- ==== Sys2Proof/Laws/Memory.lean ====
section
/-! SUPPORT. Every operation on the program and the output buffer keeps their form, and reset has it. -/

namespace Sys2Proof.Machine

theorem Memory.wf_iff (s : State) :
    Memory.wf s = true ↔
      (s.buffersHeld = true → Program.evenLength s.prog = true ∧ Program.lenMax s.params s.prog = true ∧
        withinBound s.out.length s.params.outCap = true) := by
  cases h : s.buffersHeld <;> simp [Memory.wf, h, and_assoc]

/-- The form depends on the program, the buffer, the parameters and CAUSE only. -/
theorem Memory.wf_congr {s t : State} (hp : t.prog = s.prog) (ho : t.out = s.out) (hq : t.params = s.params)
    (hc : t.cause = s.cause) : Memory.wf t = Memory.wf s := by
  simp [Memory.wf, State.buffersHeld, hp, ho, hq, hc]

theorem Memory.wf_setReg {s : State} (h : Memory.wf s = true) (r : Reg) (v : Word) : Memory.wf (s.setReg r v) = true := by
  rwa [Memory.wf_congr (State.setReg_prog s r v) (State.setReg_out s r v) (State.setReg_params s r v)
    (State.setReg_cause s r v)]

theorem Memory.wf_setIp {s : State} (h : Memory.wf s = true) (n : Nat) : Memory.wf (s.setIp n) = true := h

theorem Memory.wf_advance {s : State} (h : Memory.wf s = true) : Memory.wf s.advance = true := h

/-- Appending to a buffer that is not full keeps it within its capacity (20_memory R57). -/
theorem Memory.wf_outAppend {s : State} (h : Memory.wf s = true) (hfull : s.outFull = false) (d : Digit) :
    Memory.wf (s.outAppend d) = true := by
  rw [Memory.wf_iff] at h ⊢
  intro hb
  obtain ⟨h1, h2, h3⟩ := h hb
  refine ⟨h1, h2, ?_⟩
  simp only [State.outAppend_out, State.outAppend_params, List.length_append, List.length_singleton]
  cases hc : s.params.outCap with
  | none => rfl
  | some cap =>
    rw [hc] at h3
    simp only [withinBound, decide_eq_true_eq] at h3 ⊢
    have : cap ≠ s.out.length := by simpa [State.outFull, hc] using hfull
    omega

/-- A fault of an instruction or a fetch leaves the form as it was: it is not the fault of a failed `Load`. -/
theorem Memory.wf_enterFault {s : State} (h : Memory.wf s = true) (hb : s.buffersHeld = true) (f : Cause) :
    Memory.wf (s.enterFault f) = true := by
  rw [Memory.wf_iff] at h ⊢
  exact fun _ => h hb

/-- A successful `Load` puts a program of even length within `PROG_MAX` and an empty buffer. -/
theorem Memory.wf_loaded {s : State} {p : List Int} (he : Program.evenLength p = true)
    (hm : Program.lenMax s.params p = true) (a b c : Word) : Memory.wf (s.loaded p a b c) = true := by
  rw [Memory.wf_iff]
  refine fun _ => ⟨he, hm, ?_⟩
  simp only [State.loaded_out, State.loaded_params, List.length_nil]
  cases s.params.outCap <;> simp [withinBound]

theorem Memory.wf_failedLoad (s : State) : Memory.wf s.failedLoad = true := by
  rw [Memory.wf_iff]
  exact fun hb => absurd hb (by simp)

theorem Memory.wf_reset : Memory.wf State.reset = true := by decide

end Sys2Proof.Machine
end

