-- ==== Sys2Proof/Laws/PerInstr.lean ====
section
/-! SUPPORT. Statements about every instruction as syntax, one lemma per constructor. -/

namespace Sys2Proof.Laws.TableMatch

/-- The row's `match` under the mask 0x38 of spec/opcode_table.json. -/
def tableMatch : Instr → BitVec 6
  | .adv _ => 0x00#6
  | .bxl _ => 0x08#6
  | .bst _ => 0x10#6
  | .jnz _ => 0x18#6
  | .bxc _ => 0x20#6
  | .out _ => 0x28#6
  | .bdv _ => 0x30#6
  | .cdv _ => 0x38#6

/-- The packed form meets the row of the opcode table: its `match` under the mask, and the operand digit in the low
three bits (30_encoding R72). -/
def Statement (i : Instr) : Prop :=
  packed i &&& 0x38#6 = tableMatch i ∧ (packed i).setWidth 3 = operandDigit i

/-- The packed form's two parts, for any opcode and operand digit. -/
theorem packed_parts : ∀ o d : Digit,
    (o ++ d : BitVec 6) &&& 0x38#6 = (o ++ 0#3 : BitVec 6) ∧ (o ++ d : BitVec 6).setWidth 3 = d := by decide

theorem adv (src : Combo) : Statement (.adv src) := packed_parts 0#3 (comboDigit src)
theorem bxl (lit : Digit) : Statement (.bxl lit) := packed_parts 1#3 lit
theorem bst (src : Combo) : Statement (.bst src) := packed_parts 2#3 (comboDigit src)
theorem jnz (target : Digit) : Statement (.jnz target) := packed_parts 3#3 target
theorem bxc (ignored : Digit) : Statement (.bxc ignored) := packed_parts 4#3 ignored
theorem out (src : Combo) : Statement (.out src) := packed_parts 5#3 (comboDigit src)
theorem bdv (src : Combo) : Statement (.bdv src) := packed_parts 6#3 (comboDigit src)
theorem cdv (src : Combo) : Statement (.cdv src) := packed_parts 7#3 (comboDigit src)

end Sys2Proof.Laws.TableMatch
end

