-- ==== Sys2Proof/Laws/Step.lean ====
section
/-! SUPPORT. Everything a turn of `Run`, a host command and a step can do, said once. -/

namespace Sys2Proof.Machine

theorem withinBounds_iff (s : State) : s.withinBounds = true ↔ s.ip < s.prog.length := by
  simp [State.withinBounds]

theorem outNonempty_iff (s : State) : s.outNonempty = true ↔ s.out ≠ [] := by
  simp [State.outNonempty]

/-- The three outcomes of one turn of `Run` (40_execution_cycle R112). -/
theorem runTurn_cases (s : State) :
    (s.prog.length ≤ s.ip ∧ runTurn s = .next (s.setRunState .haltedEnd)) ∨
    (s.ip < s.prog.length ∧ s.hofo = true ∧ s.out ≠ [] ∧ runTurn s = .next (s.setRunState .haltedOutput)) ∨
    (s.ip < s.prog.length ∧ (s.hofo = false ∨ s.out = []) ∧ runTurn s = executeOne s) := by
  by_cases hb : s.ip < s.prog.length
  · have hw := (withinBounds_iff s).mpr hb
    by_cases hh : s.hofo = true ∧ s.out ≠ []
    · have hn := (outNonempty_iff s).mpr hh.2
      exact .inr (.inl ⟨hb, hh.1, hh.2, by simp [runTurn, hw, hh.1, hn]⟩)
    · have hc : (s.hofo && s.outNonempty) = false := by
        rw [Bool.and_eq_false_iff, ← Bool.not_eq_true, ← Bool.not_eq_true, outNonempty_iff]
        tauto
      refine .inr (.inr ⟨hb, ?_, by simp [runTurn, hw, hc]⟩)
      by_cases h : s.hofo = true
      · exact .inr (by tauto)
      · exact .inl (by simpa using h)
  · have hw : s.withinBounds = false := by simpa [State.withinBounds] using hb
    exact .inl ⟨by omega, by simp [runTurn, hw]⟩

/-- What `execute_one` does to the state: a fault of fetch, decode or the instruction, or the instruction's own effect
with room for the advance. -/
theorem executeOne_effect {s t : State} (h : executeOne s = .next t) :
    (∃ f, (isFetchFault f ∨ isExecFault f) ∧ t = s.enterFault f) ∨
    (s.ip + 2 ≤ s.prog.length ∧ ExecEffect s t) := by
  rcases executeOne_cases s with ⟨f, hf, e⟩ | ⟨i, -, hb, e⟩
  · rw [e] at h
    cases h
    exact .inl ⟨f, .inl hf, rfl⟩
  · rw [e] at h
    exact .inr ⟨hb, exec_effect h⟩

/-- STATE is one of the three in which a `Step` runs an instruction and a `Run` starts (40_execution_cycle R120). -/
def State.isIdle (s : State) : Prop :=
  s.runState = .ready ∨ s.runState = .haltedEnd ∨ s.runState = .haltedOutput

/-- Everything a step can do when it answers a next state. -/
inductive StepEffect (s : State) : State → Prop where
  | haltEnd (hr : s.runState = .running) (hb : s.prog.length ≤ s.ip) : StepEffect s (s.setRunState .haltedEnd)
  | haltOutput (hr : s.runState = .running) (hb : s.ip < s.prog.length) (hh : s.hofo = true) (ho : s.out ≠ []) :
      StepEffect s (s.setRunState .haltedOutput)
  | turn (t : State) (hr : s.runState = .running) (hb : s.ip < s.prog.length) (hh : s.hofo = false ∨ s.out = [])
      (he : executeOne s = .next t) : StepEffect s t
  | idle (hr : s.runState ≠ .running) (hc : s.commands = []) : StepEffect s s
  | loaded (p : List Int) (a b c : Word) (rest : List Command) (hr : s.runState ≠ .running)
      (hc : s.commands = .load p a b c :: rest) (hm : Program.lenMax s.params p = true)
      (he : Program.evenLength p = true) : StepEffect s ((s.setCommands rest).loaded p a b c)
  | failedLoad (p : List Int) (a b c : Word) (rest : List Command) (hr : s.runState ≠ .running)
      (hc : s.commands = .load p a b c :: rest) (hm : Program.lenMax s.params p = true)
      (he : Program.evenLength p = false) : StepEffect s (s.setCommands rest).failedLoad
  | notLoaded (cmd : Command) (rest : List Command) (hr : s.runState = .unloaded) (hc : s.commands = cmd :: rest)
      (hk : cmd = .step ∨ ∃ h, cmd = .run h) : StepEffect s ((s.setCommands rest).enterFault .notLoaded)
  | sticky (cmd : Command) (rest : List Command) (hr : s.runState = .faulted) (hc : s.commands = cmd :: rest)
      (hk : cmd = .step ∨ ∃ h, cmd = .run h) : StepEffect s (s.setCommands rest)
  | stepped (u : State) (rest : List Command) (hr : s.isIdle) (hc : s.commands = .step :: rest)
      (he : executeOne (s.setCommands rest) = .next u) :
      StepEffect s (if u.runState = .faulted then u else u.setRunState .ready)
  | runStarted (h : Bool) (rest : List Command) (hr : s.isIdle) (hc : s.commands = .run h :: rest) :
      StepEffect s (((s.setCommands rest).setHofo h).setRunState .running)
  | observed (cmd : Command) (rest : List Command) (hr : s.runState ≠ .running) (hc : s.commands = cmd :: rest)
      (hk : cmd = .matchesProgram ∨ ∃ f, cmd = .read f) : StepEffect s (s.setCommands rest)

theorem isIdle_of_not {s : State} (h1 : s.runState ≠ .running) (h2 : s.runState ≠ .unloaded)
    (h3 : s.runState ≠ .faulted) : s.isIdle := by
  unfold State.isIdle
  cases h : s.runState <;> simp_all

theorem settleStep_next {o : Host.Outcome State Fault Refusal} {t : State} (h : settleStep o = .next t) :
    ∃ u, o = .next u ∧ t = if u.runState = .faulted then u else u.setRunState .ready := by
  cases o with
  | next u =>
    refine ⟨u, rfl, ?_⟩
    simp only [settleStep] at h
    split at h <;> rename_i hu <;> simp only [hu, if_true, if_false] <;> cases h <;> rfl
  | fault r => cases h
  | refused r => cases h

/-- The three outcomes of a host read: the field has a value, its index does not exist, or it holds none. -/
theorem commandRead_cases (field : HostField) (s : State) :
    (∃ v, hostRead field s = some v ∧ commandRead field s = .next s) ∨
    (fieldHeld field s = true ∧ fieldValue field s = none ∧ commandRead field s = .fault .noSuchDigit) ∨
    (fieldHeld field s = false ∧ commandRead field s = .fault .noValue) := by
  cases hh : fieldHeld field s with
  | false => exact .inr (.inr ⟨rfl, by simp [commandRead, hh]⟩)
  | true =>
    cases hv : fieldValue field s with
    | none => exact .inr (.inl ⟨rfl, rfl, by simp [commandRead, hh, hv]⟩)
    | some v => exact .inl ⟨v, by simp [hostRead, hh, hv], by simp [commandRead, hh, hv]⟩

/-- Registers and ip hold values exactly where a `Load` has succeeded with no failed one after it. -/
theorem registersHeld_iff (s : State) :
    s.registersHeld = true ↔
      s.runState ≠ .unloaded ∧ s.cause ≠ .invalidProgramLength ∧ s.cause ≠ .notLoaded := by
  simp [State.registersHeld, and_assoc]

/-- Everything a step can do: every later claim about steps starts from this. -/
theorem step_effect {s t : State} (h : step s = .next t) : StepEffect s t := by
  simp only [step, cycle] at h
  split at h
  · rename_i hr
    rcases runTurn_cases s with ⟨hb, e⟩ | ⟨hb, hh, ho, e⟩ | ⟨hb, hh, e⟩ <;> rw [e] at h
    · cases h; exact .haltEnd hr hb
    · cases h; exact .haltOutput hr hb hh ho
    · exact .turn t hr hb hh h
  · rename_i hr
    split at h
    · rename_i hc
      cases h
      exact .idle hr hc
    · rename_i cmd rest hc
      simp only [issue] at h
      rw [if_neg (show ¬(s.setCommands rest).runState = .running from hr)] at h
      cases cmd with
      | load p a b c =>
        simp only [commandLoad] at h
        split at h
        · cases h
        · rename_i hm
          split at h <;> rename_i he <;> cases h
          · exact .loaded p a b c rest hr hc (by simpa using hm) he
          · exact .failedLoad p a b c rest hr hc (by simpa using hm) (by simpa using he)
      | step =>
        simp only [commandStep] at h
        split at h
        · rename_i hu
          cases h
          exact .notLoaded .step rest hu hc (.inl rfl)
        · rename_i hu
          split at h
          · rename_i hf
            cases h
            exact .sticky .step rest hf hc (.inl rfl)
          · rename_i hf
            obtain ⟨u, hu', rfl⟩ := settleStep_next h
            exact .stepped u rest (isIdle_of_not hr hu hf) hc hu'
      | run hofo =>
        simp only [commandRun] at h
        split at h
        · rename_i hu
          cases h
          exact .notLoaded _ rest hu hc (.inr ⟨hofo, rfl⟩)
        · rename_i hu
          split at h
          · rename_i hf
            cases h
            exact .sticky _ rest hf hc (.inr ⟨hofo, rfl⟩)
          · rename_i hf
            cases h
            exact .runStarted hofo rest (isIdle_of_not hr hu hf) hc
      | matchesProgram =>
        simp only [commandMatchesProgram] at h
        split at h <;> cases h
        exact .observed _ rest hr hc (.inl rfl)
      | read f =>
        rcases commandRead_cases f (s.setCommands rest) with ⟨v, -, e⟩ | ⟨-, -, e⟩ | ⟨-, e⟩ <;>
          cases e.symm.trans h
        exact .observed _ rest hr hc (.inr ⟨f, rfl⟩)

end Sys2Proof.Machine
end

