-- ==== Sys2Proof/Tests/Slice0.lean ====
section
/-! SUPPORT. Tests: the checks of WellFormed refuse, the words of the spec decode, one step of the vectors of
95_test_vectors (V numbers), and a state that meets the hypotheses of each statement. -/

namespace Sys2Proof.Tests

open Sys2Proof Sys2Proof.Machine

/-! ## Helpers -/

/-- The launch of `p` from `(a, b, c)` (70_reset_and_hazards R195). -/
def launch (p : List Int) (a b c : Int) : State :=
  State.reset.loaded p (BitVec.ofInt 64 a) (BitVec.ofInt 64 b) (BitVec.ofInt 64 c)

/-- That launch with one command to come. -/
def told (p : List Int) (a b c : Int) (cmd : Command) : State := (launch p a b c).setCommands [cmd]

/-- That launch inside a `Run(h)`. -/
def running (h : Bool) (p : List Int) (a b c : Int) : State := ((launch p a b c).setHofo h).setRunState .running

/-- The same state with other parameters. -/
def withParams (s : State) (params : Params) : State := { s with params := params }

/-- What a vector lists. -/
structure View where
  a : Int
  b : Int
  c : Int
  ip : Nat
  out : List Digit
  runState : RunState
  cause : Cause
  deriving DecidableEq, Repr

/-- What a vector lists, of a next state. -/
def view (o : Host.Outcome State Fault Refusal) : Option View :=
  match o with
  | .next t => some ⟨t.a.toInt, t.b.toInt, t.c.toInt, t.ip, t.out, t.runState, t.cause⟩
  | _ => none

/-- One `Step` on the launch, as a vector of section 2 of 95_test_vectors gives it. -/
def vector (p : List Int) (a b c : Int) := view (step (told p a b c .step))

/-! ## Ill-formed terms -/

theorem test_wf_refuses_reserved_combo :
    Instr.wf (.adv .reserved) = false ∧ Instr.wf (.bst .reserved) = false ∧ Instr.wf (.out .reserved) = false ∧
      Instr.wf (.bdv .reserved) = false ∧ Instr.wf (.cdv .reserved) = false ∧ Combo.wf .reserved = false := by decide

theorem test_wf_accepts_literal_seven :
    Instr.wf (.bxl 7#3) = true ∧ Instr.wf (.jnz 7#3) = true ∧ Instr.wf (.bxc 7#3) = true := by decide

theorem test_wf_refuses_odd_length : Program.evenLength [0, 1, 5] = false := by decide

theorem test_wf_refuses_bad_digits : Program.digits [8, 0] = false ∧ Program.digits [0, -1] = false := by decide

theorem test_wf_refuses_long_program :
    Program.lenMax { Params.specDefault with progMax := some 2 } [0, 1, 5, 4] = false ∧
      Program.lenMax { Params.specDefault with progMax := some 4 } [0, 1, 5, 4] = true := by decide

theorem test_program_wf :
    Program.wf Params.specDefault [0, 1, 5, 4, 3, 0] = true ∧ Program.wf Params.specDefault [0, 8] = false := by decide

/-! ## Decoding words written out from 30_encoding (opcode * 8 + operand in binary, both digits) -/

theorem test_decode_shift : decodeTableWord 8 0b000011 = some (.adv (.lit 3#2)) ∧
    decodeTableWord 8 0b110100 = some (.bdv (.reg .a)) ∧ decodeTableWord 8 0b111101 = some (.cdv (.reg .b)) := by decide

theorem test_decode_bitwise : decodeTableWord 8 0b001111 = some (.bxl 7#3) ∧
    decodeTableWord 8 0b010110 = some (.bst (.reg .c)) ∧ decodeTableWord 8 0b100111 = some (.bxc 7#3) := by decide

theorem test_decode_control : decodeTableWord 8 0b011000 = some (.jnz 0#3) ∧
    decodeTableWord 8 0b101100 = some (.out (.reg .a)) ∧ decodeTableWord 6 0b101111 = some (.out .reserved) := by decide

/-- Both sides of every bound of DecodeRefusesByDigit. -/
theorem test_decode_refuses : decode 8 0 = .error .invalidOpcodeDigit ∧ decode (-1) 0 = .error .invalidOpcodeDigit ∧
    decode 4 9 = .error .invalidOperandDigit ∧ decode 7 (-1) = .error .invalidOperandDigit ∧
    decode 0 7 = .ok (.adv .reserved) ∧ decode 8 9 = .error .invalidOpcodeDigit ∧ decodeTableWord 8 64 = none := by decide

/-- The listing of P1 (95_test_vectors, section 5). -/
theorem test_listing_p1 :
    disassemble [0, 1, 5, 4, 3, 0] = [.ok (.adv (.lit 1#2)), .ok (.out (.reg .a)), .ok (.jnz 0#3)] := by decide

/-- `out A # ...` is `out 4` (30_encoding R83). -/
theorem test_assemble_line : assembleLine ['o', 'u', 't', ' ', 'A', ' ', '#', 'x'] = some [5, 4] ∧
    assembleLine ['j', 'n', 'z', ' ', 'A'] = none ∧ assembleLine ['#'] = some [] := by decide

/-- The program text of R82. -/
theorem test_program_text : programText [0#3, 3#3, 5#3] = ['0', ',', '3', ',', '5'] := by decide

/-! ## Instructions, one step each (95_test_vectors, section 2) -/

/-- V13. -/
theorem test_adv_by_itself : vector [0, 4] 3 0 0 = some ⟨0, 0, 0, 2, [], .ready, .none⟩ := by decide
/-- V18. -/
theorem test_adv_negative_amount :
    vector [0, 6] 100 0 (-1) = some ⟨100, 0, -1, 0, [], .faulted, .negativeShiftAmount⟩ := by decide
/-- V25. -/
theorem test_bdv_zero_copies : vector [6, 0] 2024 5 0 = some ⟨2024, 2024, 0, 2, [], .ready, .none⟩ := by decide
/-- V27. -/
theorem test_bdv_same_register : vector [6, 5] 2024 3 0 = some ⟨2024, 253, 0, 2, [], .ready, .none⟩ := by decide
/-- V31. -/
theorem test_cdv_by_b : vector [7, 5] 117440 3 0 = some ⟨117440, 3, 14680, 2, [], .ready, .none⟩ := by decide
/-- V33. -/
theorem test_cdv_reserved : vector [7, 7] 100 0 0 = some ⟨100, 0, 0, 0, [], .faulted, .reservedComboOperand⟩ := by decide
/-- V36. -/
theorem test_bxl_seven : vector [1, 7] 0 29 0 = some ⟨0, 26, 0, 2, [], .ready, .none⟩ := by decide
/-- V37. -/
theorem test_bxl_negative : vector [1, 5] 0 (-1) 0 = some ⟨0, -6, 0, 2, [], .ready, .none⟩ := by decide
/-- V43. -/
theorem test_bst_negative : vector [2, 5] 0 (-1) 0 = some ⟨0, 7, 0, 2, [], .ready, .none⟩ := by decide
/-- V45. -/
theorem test_bst_negative_c : vector [2, 6] 0 0 (-9) = some ⟨0, 7, -9, 2, [], .ready, .none⟩ := by decide
/-- V51. -/
theorem test_bxc_ignores_seven : vector [4, 7] 0 2024 43690 = some ⟨0, 44354, 43690, 2, [], .ready, .none⟩ := by decide
/-- V53. -/
theorem test_bxc_negative : vector [4, 0] 0 (-1) 5 = some ⟨0, -6, 5, 2, [], .ready, .none⟩ := by decide
/-- V55. -/
theorem test_jnz_not_taken : vector [3, 0] 0 0 0 = some ⟨0, 0, 0, 2, [], .ready, .none⟩ := by decide
/-- V57. -/
theorem test_jnz_negative_odd : vector [3, 5] (-3) 0 0 = some ⟨-3, 0, 0, 5, [], .ready, .none⟩ := by decide
/-- V62. -/
theorem test_out_negative : vector [5, 5] 0 (-1) 0 = some ⟨0, -1, 0, 2, [7#3], .ready, .none⟩ := by decide
/-- V64. -/
theorem test_out_reserved : vector [5, 7] 0 0 0 = some ⟨0, 0, 0, 0, [], .faulted, .reservedComboOperand⟩ := by decide

/-- V15 to V18 and V20 to V22, on the shared operation; they meet each clause of ShrDividesByPowerOfTwo. -/
theorem test_shr_readings :
    shr .floor (BitVec.ofInt 64 (2 ^ 63 - 1)) 62#64 = .ok 1#64 ∧
      shr .floor (BitVec.ofInt 64 (2 ^ 63 - 1)) 64#64 = .ok 0#64 ∧
      shr .floor (BitVec.ofInt 64 (-5)) 1#64 = .ok (BitVec.ofInt 64 (-3)) ∧
      shr .trunc (BitVec.ofInt 64 (-5)) 1#64 = .ok (BitVec.ofInt 64 (-2)) ∧
      shr .fault (BitVec.ofInt 64 (-5)) 1#64 = .error .negativeDividend ∧
      shr .floor (BitVec.ofInt 64 (-1)) 200#64 = .ok (BitVec.ofInt 64 (-1)) ∧
      shr .trunc (BitVec.ofInt 64 (-1)) 200#64 = .ok 0#64 ∧
      shr .trunc (BitVec.ofInt 64 (-2 ^ 63)) 63#64 = .ok (BitVec.ofInt 64 (-1)) ∧
      shr .floor 100#64 (BitVec.ofInt 64 (-1)) = .error .negativeShiftAmount := by decide

/-- V65 to V67. -/
theorem test_bad_digits_fault :
    vector [8, 0] 0 0 0 = some ⟨0, 0, 0, 0, [], .faulted, .invalidOpcodeDigit⟩ ∧
      vector [4, 9] 0 0 0 = some ⟨0, 0, 0, 0, [], .faulted, .invalidOperandDigit⟩ ∧
      vector [-1, 0] 0 0 0 = some ⟨0, 0, 0, 0, [], .faulted, .invalidOpcodeDigit⟩ := by decide

/-! ## Commands and halts, one step each (95_test_vectors, section 3) -/

/-- V75, its second turn: `ip = len - 1`. -/
theorem test_operand_fetch_faults :
    view (step ((running false [3, 1] 1 0 0).setIp 1)) = some ⟨1, 0, 0, 1, [], .faulted, .operandFetchOutOfBounds⟩ := by
  decide

/-- V84, its `Step` beyond the end. -/
theorem test_step_beyond_end_faults :
    view (step ((told [5, 3] 0 0 0 .step).setIp 2)) = some ⟨0, 0, 0, 2, [], .faulted, .fetchOutOfBounds⟩ := by decide

/-- V85. -/
theorem test_step_before_load :
    view (step (State.reset.setCommands [.step])) = some ⟨0, 0, 0, 0, [], .faulted, .notLoaded⟩ := by decide

/-- V86: both halt tests hold, HALTED_END is reported. -/
theorem test_both_halts_report_end :
    view (step (((running true [5, 3] 0 0 0).outAppend 3#3).setIp 2)) =
      some ⟨0, 0, 0, 2, [3#3], .haltedEnd, .none⟩ := by decide

/-- V74, its second `Run(true)`: the halt test stops it before any step. -/
theorem test_run_stops_on_old_output :
    view (step (((running true [0, 1, 5, 4, 3, 0] 364 0 0).outAppend 4#3).setIp 4)) =
      some ⟨364, 0, 0, 4, [4#3], .haltedOutput, .none⟩ := by decide

/-- V87. -/
theorem test_odd_ip_parameter :
    view (step (withParams ((running false [3, 1, 5, 4, 0, 0] 1 0 0).setIp 1)
      { Params.specDefault with oddIp := .fault })) = some ⟨1, 0, 0, 1, [], .faulted, .oddIp⟩ := by decide

/-- V79, its fourth `out`. -/
theorem test_out_capacity :
    view (step (withParams (running false [5, 4, 3, 0] 1 0 0) { Params.specDefault with outCap := some 0 })) =
      some ⟨1, 0, 0, 0, [], .faulted, .outputOverflow⟩ := by decide

/-- The STATUS word of V86's end: STATE 3, HOFO 1, MATCH 0, OUT_NONEMPTY 1 (10_state R35). -/
theorem test_status_word :
    (((running true [5, 3] 0 0 0).outAppend 3#3).setRunState .haltedEnd).statusWord = 0b1000001011#32 := by decide

/-- V6's MATCH on its end state: output and program agree. -/
theorem test_match :
    (State.outAppend (State.outAppend (launch [5, 3] 0 0 0) 5#3) 3#3).matchOut = true ∧
      (State.outAppend (launch [5, 3] 0 0 0) 5#3).matchOut = false := by decide

/-- A whole `Run` of no turn: V70, the empty program. -/
theorem test_run_empty_program :
    (match runUnderFuel 1 false (launch [] 0 0 0) with
      | .ended t => some (t.runState, t.ip, t.final)
      | _ => none) = some (.haltedEnd, 0, true) := by decide

/-! ## States that meet the hypotheses of the statements -/

theorem test_meets_PackedWordDecodes :
    6 ≤ 6 ∧ decodeTableWord 6 63 = some (.cdv .reserved) ∧ (packed (.cdv .reserved)).toNat = 63 := by decide

theorem test_meets_DivisionHelpersAreExact :
    (-5 : Int) < 0 ∧ truncDiv (-5) 1 = -2 ∧ floorDiv (-5) 1 = -3 ∧ (0 : Int) ≤ 0 ∧ (mod8 (BitVec.ofInt 64 (-9))) = 7#3 := by
  decide

theorem test_meets_ShrStaysWithinDividend :
    shr .floor (BitVec.ofInt 64 (2 ^ 63 - 1)) 63#64 = .ok 0#64 ∧
      shr .trunc (BitVec.ofInt 64 (-2 ^ 63)) 0#64 = .ok (BitVec.ofInt 64 (-2 ^ 63)) := by decide

/-- For adv, bdv and cdv: a literal amount with A = 0, and amount 0 with A negative under FLOOR and under TRUNC. -/
theorem test_meets_shift_results :
    (comboValue (.lit 3#2) (launch [0, 3] 0 0 0) = .ok 3#64 ∧ 0 ≤ (3#64 : Word).toInt ∧
      0 ≤ (launch [0, 3] 0 0 0).a.toInt) ∧
    (comboValue (.reg .b) (launch [0, 5] (-1) 0 0) = .ok 0#64 ∧
      (launch [0, 5] (-1) 0 0).params.negDiv ≠ .fault) ∧
    (withParams (launch [0, 5] (-1) 0 0) { Params.specDefault with negDiv := .trunc }).params.negDiv ≠ .fault := by
  decide

theorem test_meets_ShiftInstructionsRaiseInOrder :
    (comboValue (.reg .c) (launch [7, 6] 100 0 (-1)) = .ok (BitVec.ofInt 64 (-1)) ∧
      (BitVec.ofInt 64 (-1)).toInt < 0) ∧
    (let s := withParams (launch [0, 0] (-1) 0 0) { Params.specDefault with negDiv := .fault }
     comboValue (.lit 0#2) s = .ok 0#64 ∧ 0 ≤ (0#64 : Word).toInt ∧ s.a.toInt < 0 ∧ s.params.negDiv = .fault) := by
  decide

theorem test_meets_ShiftByItselfGivesZero :
    0 ≤ (launch [0, 4] 0 0 0).a.toInt ∧ (launch [0, 4] (-1) 0 0).a.toInt < 0 := by decide

theorem test_meets_BxlXorsLiteralIntoB : (0 : Nat) < 3 ∧ 3 ≤ 3 ∧ (0#3 : Digit) = 0#3 := by decide

theorem test_meets_BstTakesMod8IntoB : comboValue (.reg .b) (launch [2, 5] 0 (-1) 0) = .ok (BitVec.ofInt 64 (-1)) := by
  decide

theorem test_meets_BxcXorsCIntoB : (launch [4, 0] 0 77 77).b = (launch [4, 0] 0 77 77).c ∧
    ¬(0 ≤ (8 : Int) ∧ (8 : Int) ≤ 7) ∧ ¬(0 ≤ (-1 : Int) ∧ (-1 : Int) ≤ 7) := by decide

/-- A taken jump to its own index, both sides of the zero test, and a target at the end. -/
theorem test_meets_JnzJumpsOnNonzeroA :
    (let s := running true [3, 0] 1 0 0
     s.a.toInt ≠ 0 ∧ s.runState = .running ∧ s.out = [] ∧ fetchDecode s = .ok (.jnz 0#3) ∧ s.ip = (0#3 : Digit).toNat) ∧
    (launch [3, 0] 0 0 0).a.toInt = 0 ∧
    ((running true [3, 2] 1 0 0).prog.length ≤ (2#3 : Digit).toNat ∧ (running true [3, 2] 1 0 0).runState = .running) := by
  decide

theorem test_meets_OutAppendsMod8 :
    comboValue (.lit 3#2) (launch [5, 3] 0 0 0) = .ok 3#64 ∧
      (launch [5, 3] 0 0 0).params.outCap ≠ some (launch [5, 3] 0 0 0).out.length := by decide

theorem test_meets_OutRaisesWhenBufferFull :
    (Combo.lit 3#2) ≠ .reserved ∧
      (withParams (launch [5, 3] 0 0 0) { Params.specDefault with outCap := some 0 }).params.outCap =
        some (launch [5, 3] 0 0 0).out.length := by decide

theorem test_meets_ReservedComboRaises : Instr.wf (.bst .reserved) = false ∧ packed (.bst .reserved) = 0x17#6 := by
  decide

/-- An instruction that raises, from a state that is not FAULTED: one for each clause. -/
theorem test_meets_ExecutionFaultsByInstruction :
    exec (.bst .reserved) (launch [2, 7] 0 0 0) = .next ((launch [2, 7] 0 0 0).enterFault .reservedComboOperand) ∧
      exec (.cdv (.reg .c)) (launch [7, 6] 0 0 (-1)) =
        .next ((launch [7, 6] 0 0 (-1)).enterFault .negativeShiftAmount) ∧
      (launch [7, 6] 0 0 (-1)).runState ≠ .faulted := ⟨rfl, rfl, by decide⟩

theorem test_meets_OnlyNamedInstructionsWrite :
    exec (.bxc 0#3) (launch [4, 0] 0 1 1) = .next (((launch [4, 0] 0 1 1).setReg .b 0#64).setIp 2) := rfl

theorem test_meets_IpAdvancesByTwo :
    (launch [3, 1] 1 0 0).runState ≠ .faulted ∧ (launch [3, 1] 1 0 0).a.toInt ≠ 0 := by decide

/-- A pending `Step` at `ip = len`, where `execute_one` answers a FAULTED state; decoded digits inside a `Run`, and
under a pending `Step`. -/
theorem test_meets_StepRunsDecodedInstruction :
    (let s := (told [5, 3] 0 0 0 .step).setIp 2
     s.runState = .ready ∧ s.commands = [.step] ∧ s.prog.length ≤ s.ip ∧
       view (executeOne { s with commands := [] }) = some ⟨0, 0, 0, 2, [], .faulted, .fetchOutOfBounds⟩) ∧
    (let s := running false [1, 7] 0 0 0
     s.prog[s.ip]? = some 1 ∧ s.prog[s.ip + 1]? = some 7 ∧ decode 1 7 = .ok (.bxl 7#3) ∧
       s.params.oddIp = .execute ∧ s.runState = .running ∧ s.hofo = false) ∧
    (let s := told [1, 7] 0 0 0 .step
     s.runState = .ready ∧ s.commands = [.step]) := by decide

/-- Each clause at its boundary: `ip = len`, an odd ip that faults, `ip = len - 1`, and bad digits. -/
theorem test_meets_FetchAndDecodeFaultInOrder :
    (let s := (running false [0, 0] 0 0 0).setIp 2
     s.prog.length ≤ s.ip) ∧
    (let s := withParams ((running false [0, 0] 0 0 0).setIp 1) { Params.specDefault with oddIp := .fault }
     s.ip < s.prog.length ∧ s.params.oddIp = .fault ∧ s.ip % 2 = 1) ∧
    (let s := (running false [0, 0] 0 0 0).setIp 1
     s.ip + 1 = s.prog.length ∧ s.params.oddIp = .execute) ∧
    (let s := running false [8, 0] 0 0 0
     s.prog[s.ip]? = some 8 ∧ s.prog[s.ip + 1]? = some 0 ∧ ¬(0 ≤ (8 : Int) ∧ (8 : Int) ≤ 7)) ∧
    (let s := running false [7, -1] 0 0 0
     s.prog[s.ip + 1]? = some (-1) ∧ ¬(0 ≤ (-1 : Int) ∧ (-1 : Int) ≤ 7)) := by decide

theorem test_meets_FaultsArePrecise :
    step (running false [8, 0] 0 0 0) = .next ((running false [8, 0] 0 0 0).enterFault .invalidOpcodeDigit) ∧
      (running false [8, 0] 0 0 0).runState ≠ .faulted := ⟨rfl, by decide⟩

/-- A faulted state with a `Step` to come, and one that a `Load` leaves. -/
theorem test_meets_FaultedLeftOnlyByLoad :
    ((told [] 0 0 0 .step).enterFault .oddIp).runState = .faulted ∧
      step ((told [] 0 0 0 (.load [0, 0] 1#64 2#64 3#64)).enterFault .oddIp) = .next (launch [0, 0] 1 2 3) :=
  ⟨rfl, rfl⟩

theorem test_meets_LoadGivesLaunch :
    State.reset.runState ≠ .running ∧ ([] : List Int).length % 2 = 0 ∧
      Program.lenMax State.reset.params [] = true ∧
      (State.reset.setCommands [.load [] 0#64 0#64 0#64]).commands = [.load [] 0#64 0#64 0#64] := by decide

theorem test_meets_OddLoadLeavesNoValue :
    ([0, 1, 5] : List Int).length % 2 = 1 ∧ Program.lenMax State.reset.params [0, 1, 5] = true ∧
      view (step (State.reset.setCommands [.load [0, 1, 5] 0#64 0#64 0#64])) ≠ none := by
  refine ⟨by decide, by decide, ?_⟩
  exact Option.some_ne_none _

theorem test_meets_LongLoadIsRefused :
    (withParams State.reset { Params.specDefault with progMax := some 1 }).params.progMax = some 1 ∧
      1 < ([0, 0] : List Int).length ∧ State.reset.runState ≠ .running := by decide

theorem test_meets_CommandsBeforeLoadRaise :
    State.reset.runState = .unloaded ∧ (State.reset.setCommands [.run true]).commands = [.run true] := by decide

theorem test_meets_RunCommandStartsLoop :
    (told [5, 3] 0 0 0 (.run true)).runState = .ready ∧
      ((told [5, 3] 0 0 0 (.run false)).setRunState .haltedOutput).commands = [.run false] := by decide

/-- `ip = len`, and a jump to `len` (V77's shape). -/
theorem test_meets_RunStopsOutOfBounds :
    (let s := (running true [3, 6, 5, 4] 1 0 0).setIp 4
     s.runState = .running ∧ s.prog.length ≤ s.ip) ∧
    (let s := running true [3, 4, 5, 4] 1 0 0
     s.out = [] ∧ fetchDecode s = .ok (.jnz 4#3) ∧ s.a.toInt ≠ 0 ∧ s.prog.length ≤ (4#3 : Digit).toNat) := by decide

theorem test_meets_RunStopsOnOutput :
    (let s := (running true [5, 3] 0 0 0).outAppend 0#3
     s.runState = .running ∧ s.ip < s.prog.length ∧ s.hofo = true ∧ s.out ≠ []) ∧
    (running false [5, 3] 0 0 0).hofo = false := by decide

/-- A buffer still empty, and one that the turn before filled. -/
theorem test_meets_FirstOutputRunHoldsOneDigit :
    (let s := running true [5, 3, 5, 2] 0 0 0
     s.runState = .running ∧ s.hofo = true ∧ s.out.length ≤ 1 ∧ step s = .next ((s.outAppend 3#3).setIp 2)) ∧
    (let s := ((running true [5, 3, 5, 2] 0 0 0).outAppend 3#3).setIp 2
     s.out.length ≤ 1 ∧ step s = .next (s.setRunState .haltedOutput)) := ⟨⟨rfl, rfl, by decide, rfl⟩, by decide, rfl⟩

theorem test_meets_MatchIsExactEquality :
    (told [] 0 0 0 .matchesProgram).runState ≠ .running ∧ (told [] 0 0 0 .matchesProgram).registersHeld = true ∧
      (told [] 0 0 0 .matchesProgram).commands = [.matchesProgram] := by decide

theorem test_meets_StatusWordFields : (launch [] 0 0 0).registersHeld = true ∧ 10 ≤ 31 := by decide

theorem test_meets_HostReadsHaveNoEffect :
    (told [0, 8] 0 0 0 (.read (.prog 1))).runState ≠ .running ∧
      hostRead (.prog 1) (told [0, 8] 0 0 0 (.read (.prog 1))) = some (.element 8) ∧
      (told [0, 8] 0 0 0 (.read (.prog 1))).registersHeld = true := by decide

/-- UNLOADED, after NOT_LOADED, and after a failed `Load` (its program and buffer too). -/
theorem test_meets_NoValueBeforeLoad :
    (let s := State.reset.setCommands [.read (.reg .a)]
     s.runState ≠ .running ∧ s.registersHeld = false ∧ s.commands = [.read (.reg .a)]) ∧
    (let s := (State.reset.enterFault .notLoaded).setCommands [.matchesProgram]
     s.runState ≠ .running ∧ s.registersHeld = false ∧ s.commands = [.matchesProgram]) ∧
    (let s := State.reset.failedLoad.setCommands [.read .progLen]
     s.runState ≠ .running ∧ s.registersHeld = false ∧ s.cause = .invalidProgramLength ∧
       s.commands = [.read .progLen]) :=
  ⟨by decide, by decide, (nofun : RunState.faulted ≠ .running), rfl, rfl, rfl⟩

/-- `i = len` in the program, and `out[0]` of an empty buffer. -/
theorem test_meets_ReadBeyondTheEndStops :
    (let s := told [0, 8] 0 0 0 (.read (.prog 2))
     s.runState ≠ .running ∧ s.buffersHeld = true ∧ s.commands = [.read (.prog 2)] ∧ s.prog.length ≤ 2) ∧
    (let s := told [0, 8] 0 0 0 (.read (.out 0))
     s.runState ≠ .running ∧ s.buffersHeld = true ∧ s.commands = [.read (.out 0)] ∧ s.out.length ≤ 0) := by decide

/-- `bst 6` does not read A, and `adv 3` reads neither B nor C: each completes. -/
theorem test_meets_OnlyNamedRegistersAreRead :
    exec (.bst (.reg .c)) (launch [2, 6] 0 0 9) = .next (((launch [2, 6] 0 0 9).setReg .b 1#64).setIp 2) ∧
      (∀ d, Instr.bst (.reg .c) ≠ .jnz d) ∧ Instr.bst (.reg .c) ≠ .bst (.reg .a) ∧
      view (exec (.adv (.lit 3#2)) (launch [0, 3] 8 1 2)) = some ⟨1, 1, 2, 2, [], .ready, .none⟩ :=
  ⟨rfl, by decide, by decide, by decide⟩

theorem test_meets_HostHasNoMoveWhileRunning :
    step ((running false [1, 0] 0 0 0).setCommands [.step]) =
      .next (((running false [1, 0] 0 0 0).setCommands [.step]).setIp 2) ∧
      (running false [1, 0] 0 0 0).runState = .running := ⟨rfl, rfl⟩

/-- No command, a `Step` and a turn with fault, and a `Step` and a turn without. -/
theorem test_meets_RunStateTransitions : step State.reset = .next State.reset ∧
    vector [8, 0] 0 0 0 = some ⟨0, 0, 0, 0, [], .faulted, .invalidOpcodeDigit⟩ ∧
    view (step (running false [5, 7] 0 0 0)) = some ⟨0, 0, 0, 0, [], .faulted, .reservedComboOperand⟩ ∧
    vector [5, 3] 0 0 0 = some ⟨0, 0, 0, 2, [3#3], .ready, .none⟩ ∧
    view (step (running false [5, 3] 0 0 0)) = some ⟨0, 0, 0, 2, [3#3], .running, .none⟩ :=
  ⟨rfl, by decide, by decide, by decide, by decide⟩

theorem test_meets_ProgramImmutableAfterLoad :
    step (running false [5, 3] 0 0 0) = .next (((running false [5, 3] 0 0 0).outAppend 3#3).setIp 2) ∧
      (running false [5, 3] 0 0 0).runState = .running := ⟨rfl, rfl⟩

/-- A run that ends after one turn that executes and one that halts (RunLoopIsMachineSteps, RunEndIsUnique,
RunEndsInThreeWays). -/
theorem test_meets_run_ends :
    runLoop 2 (running false [5, 3] 0 0 0) =
      .ended ((((running false [5, 3] 0 0 0).outAppend 3#3).setIp 2).setRunState .haltedEnd) ∧
      (running false [5, 3] 0 0 0).runState = .running := ⟨rfl, rfl⟩

theorem test_meets_PlacedWordRunsNext :
    State.reset.params.oddIp = .execute ∧
      (State.reset.withFetchWord 8 0b001101).prog = [1, 5] ∧
      view (step (State.reset.withFetchWord 8 0b001101)) = some ⟨0, 5, 0, 2, [], .running, .none⟩ := by decide

/-- A running state meets both invariants, and its step answers a next state (StepKeepsConsistent,
StepKeepsRegistersNonneg). -/
theorem test_meets_invariants :
    (running false [5, 3] 1 2 3).Consistent ∧ (running false [5, 3] 1 2 3).Nonneg ∧
      view (step (running false [5, 3] 1 2 3)) = some ⟨1, 2, 3, 2, [3#3], .running, .none⟩ := by
  refine ⟨⟨by decide, by decide, by decide, by decide, by decide, by decide, by decide⟩, ⟨?_, ?_⟩, by decide⟩
  · intro _ r
    cases r <;> decide
  · intro p a b c h
    cases h

end Sys2Proof.Tests
end

section
/-! PROOFS. The arithmetic helpers of 00_scope R11: floor and truncated division by a power of two, and `mod8`. -/

namespace Sys2Proof.Machine

/-- The defining property of `floor_div` (00_scope R11). -/
theorem mul_two_pow_le_iff_le_floorDiv (a q : Int) (k : Nat) : q * 2 ^ k ≤ a ↔ q ≤ floorDiv a k := by
  have hpos : (0 : Int) < ((2 ^ k : Nat) : Int) := Int.natCast_pos.mpr (Nat.two_pow_pos k)
  rw [floorDiv, Int.le_ediv_iff_mul_le hpos, Nat.cast_pow, Nat.cast_ofNat]

/-- Rounding a negative dividend toward zero is rounding its magnitude down. -/
theorem truncDiv_eq_neg_floorDiv (a : Int) (k : Nat) (h : a < 0) : truncDiv a k = -floorDiv (-a) k := by
  rw [truncDiv_neg, truncDiv_nonneg _ _ (by omega)]

/-- The signed value of a word differs from its unsigned value by a multiple of 8. -/
theorem toInt_emod_eight (v : Word) : v.toInt % 8 = (v.toNat : Int) % 8 := by
  rw [BitVec.toInt_eq_toNat_cond]
  split <;> omega

theorem mod8_toNat_eq_emod (v : Word) : ((mod8 v).toNat : Int) = v.toInt % 8 := by
  rw [toInt_emod_eight, mod8, BitVec.toNat_setWidth, Int.natCast_emod]
  rfl

theorem mod8_toNat_eq_sub_floorDiv (v : Word) :
    ((mod8 v).toNat : Int) = v.toInt - 8 * floorDiv v.toInt 3 := by
  rw [mod8_toNat_eq_emod, Int.emod_def]
  rfl

theorem mod8_getLsbD (v : Word) (k : Nat) (hk : k < 3) : (mod8 v).getLsbD k = v.getLsbD k := by
  simp [mod8, hk]

/-- Settles O8, clause by clause: the defining property of floor division, truncation on each sign of the dividend,
and the low three bits as the Euclidean remainder by 8. -/
theorem divisionHelpersAreExact : Obligations.DivisionHelpersAreExact :=
  ⟨mul_two_pow_le_iff_le_floorDiv, truncDiv_nonneg, truncDiv_eq_neg_floorDiv,
    fun v => ⟨mod8_toNat_eq_sub_floorDiv v, mod8_getLsbD v⟩⟩

end Sys2Proof.Machine
end

section
/-! PROOFS. The instruction pointer after an instruction (10_state R25), MATCH (10_state R34), and the step that takes
the host's next command. -/

namespace Sys2Proof.Machine

/-- The index the rule of 10_state R25 gives: the literal after a taken `jnz`, else the usual advance. -/
def nextIp (i : Instr) (s : State) : Nat :=
  match i with
  | .jnz d => if s.a.toInt = 0 then s.ip + 2 else d.toNat
  | _ => s.ip + 2

theorem nextIp_jnz_taken {s : State} (ha : s.a.toInt ≠ 0) (d : Digit) : nextIp (.jnz d) s = d.toNat := if_neg ha

theorem nextIp_of_not_taken {i : Instr} {s : State} (h : ∀ d, i = .jnz d → s.a.toInt = 0) :
    nextIp i s = s.ip + 2 := by
  cases i with
  | jnz d => exact if_pos (h d rfl)
  | _ => rfl

/-- The outcome is a fault that keeps every other field of `s`, or a next state at index `n` in the STATE of `s`. -/
def FaultsOrMovesTo (s : State) (n : Nat) (o : Host.Outcome State Fault Refusal) : Prop :=
  ∃ t, o = .next t ∧ ((∃ f, t = s.enterFault f) ∨ (t.ip = n ∧ t.runState = s.runState))

theorem raise_faultsOrMovesTo (f : Cause) (s : State) (n : Nat) : FaultsOrMovesTo s n (raise f s) :=
  ⟨_, raise_eq f s, .inl ⟨f, rfl⟩⟩

theorem setReg_advance_movesTo (s : State) (r : Reg) (v : Word) :
    FaultsOrMovesTo s (s.ip + 2) (.next (s.setReg r v).advance) :=
  ⟨_, rfl, .inr (by simp)⟩

theorem shiftDivide_faultsOrAdvances (dst : Reg) (src : Combo) (s : State) :
    FaultsOrMovesTo s (s.ip + 2) (shiftDivide dst src s) := by
  rcases shiftDivide_cases dst src s with ⟨_, q, -, -, e⟩ | ⟨-, e⟩ | ⟨_, f, -, -, e⟩ <;> rw [e]
  · exact setReg_advance_movesTo s dst q
  · exact raise_faultsOrMovesTo _ s _
  · exact raise_faultsOrMovesTo f s _

theorem execBst_faultsOrAdvances (src : Combo) (s : State) : FaultsOrMovesTo s (s.ip + 2) (execBst src s) := by
  unfold execBst
  split
  · exact raise_faultsOrMovesTo _ s _
  · exact setReg_advance_movesTo s .b _

theorem execOut_faultsOrAdvances (src : Combo) (s : State) : FaultsOrMovesTo s (s.ip + 2) (execOut src s) := by
  unfold execOut
  split
  · exact raise_faultsOrMovesTo _ s _
  · split
    · exact raise_faultsOrMovesTo _ s _
    · exact ⟨_, rfl, .inr ⟨rfl, rfl⟩⟩

theorem execJnz_movesTo (d : Digit) (s : State) : FaultsOrMovesTo s (nextIp (.jnz d) s) (execJnz d s) := by
  have hzero : s.a = 0#64 ↔ s.a.toInt = 0 := BitVec.toInt_inj.symm
  by_cases ha : s.a.toInt = 0
  · rw [execJnz, if_neg (not_not.mpr (hzero.mpr ha)), nextIp, if_pos ha]
    exact ⟨_, rfl, .inr ⟨rfl, rfl⟩⟩
  · rw [execJnz, if_pos (mt hzero.mp ha), nextIp_jnz_taken ha, literalValue_toNat]
    exact ⟨_, rfl, .inr ⟨rfl, rfl⟩⟩

/-- Every instruction either raises a fault, which keeps ip, or goes on at the index of 10_state R25. -/
theorem exec_faultsOrMovesTo_nextIp (i : Instr) (s : State) : FaultsOrMovesTo s (nextIp i s) (exec i s) := by
  cases i with
  | adv src => exact shiftDivide_faultsOrAdvances .a src s
  | bdv src => exact shiftDivide_faultsOrAdvances .b src s
  | cdv src => exact shiftDivide_faultsOrAdvances .c src s
  | bxl lit => exact setReg_advance_movesTo s .b _
  | bxc d => exact setReg_advance_movesTo s .b _
  | bst src => exact execBst_faultsOrAdvances src s
  | out src => exact execOut_faultsOrAdvances src s
  | jnz d => exact execJnz_movesTo d s

/-- A move keeps a STATE that is not FAULTED, so a faulting outcome is a fault entry, and that keeps ip. -/
theorem FaultsOrMovesTo.ip_cases {s : State} {n : Nat} {o : Host.Outcome State Fault Refusal}
    (h : FaultsOrMovesTo s n o) (hs : s.runState ≠ .faulted) :
    ∃ t, o = .next t ∧ (t.runState = .faulted → t.ip = s.ip) ∧ (t.runState ≠ .faulted → t.ip = n) := by
  obtain ⟨t, ho, ⟨f, rfl⟩ | ⟨hip, hrun⟩⟩ := h
  · exact ⟨_, ho, fun _ => rfl, fun hne => absurd rfl hne⟩
  · exact ⟨t, ho, fun hf => absurd (hrun.symm.trans hf) hs, fun _ => hip⟩

/-- Settles O26: the two kinds of outcome of `exec`, and for `execute_one` also a fault of fetch or decode, which is a
fault entry too. -/
theorem ipAdvancesByTwo : Obligations.IpAdvancesByTwo := by
  refine ⟨fun i s hs => ?_, fun s hs => ?_⟩
  · obtain ⟨t, he, hfault, hmove⟩ := (exec_faultsOrMovesTo_nextIp i s).ip_cases hs
    refine ⟨t, he, hfault, fun hne => ⟨?_, fun hnt => ?_⟩⟩
    · rintro d rfl ha
      rw [hmove hne, nextIp_jnz_taken ha]
    · rw [hmove hne, nextIp_of_not_taken hnt]
  · rcases executeOne_cases s with ⟨f, -, e⟩ | ⟨i, -, -, e⟩
    · exact ⟨_, e, fun _ => rfl⟩
    · obtain ⟨t, he, hfault, -⟩ := (exec_faultsOrMovesTo_nextIp i s).ip_cases hs
      exact ⟨t, e.trans he, hfault⟩

/-- Outside a `Run`, a step takes the host's next command off the list and issues it. -/
theorem step_eq_issue {s : State} {cmd : Command} {rest : List Command} (hr : s.runState ≠ .running)
    (hc : s.commands = cmd :: rest) : step s = issue cmd (s.setCommands rest) := by
  simp [step, cycle, hr, hc]

theorem issue_matchesProgram {s : State} (hr : s.runState ≠ .running) (hv : s.registersHeld = true) :
    issue .matchesProgram s = .next s := by
  simp [issue, commandMatchesProgram, hr, hv]

theorem matchOut_iff_map (s : State) : s.matchOut = true ↔ s.out.map (fun d => (d.toNat : Int)) = s.prog :=
  beq_iff_eq

/-- MATCH by index, with both ends in view: the program has at each index just what the output has there. -/
theorem matchOut_iff_getElem? (s : State) :
    s.matchOut = true ↔ ∀ k : Nat, s.prog[k]? = s.out[k]?.map fun d => (d.toNat : Int) := by
  rw [matchOut_iff_map, List.map_eq_iff]

theorem matchOut_iff_length_and_elements (s : State) :
    s.matchOut = true ↔ s.out.length = s.prog.length ∧
      ∀ (k : Nat) (d : Digit), s.out[k]? = some d → s.prog[k]? = some (d.toNat : Int) := by
  constructor
  · intro h
    refine ⟨?_, fun k d hd => ?_⟩
    · rw [← (matchOut_iff_map s).mp h, List.length_map]
    · rw [(matchOut_iff_getElem? s).mp h, hd, Option.map_some]
  · rintro ⟨hlen, helem⟩
    refine (matchOut_iff_getElem? s).mpr fun k => ?_
    cases hd : s.out[k]? with
    | some d => exact helem k d hd
    | none => exact List.getElem?_eq_none (hlen ▸ List.getElem?_eq_none_iff.mp hd)

/-- Settles O39: equality of lists by length and elements, and the `MatchesProgram` command as the identity where MATCH
has a value. -/
theorem matchIsExactEquality : Obligations.MatchIsExactEquality := by
  refine fun s => ⟨matchOut_iff_length_and_elements s, fun rest hr hv hc => ?_⟩
  rw [step_eq_issue hr hc]
  exact issue_matchesProgram (s := s.setCommands rest) hr hv

end Sys2Proof.Machine
end

section
/-! PROOFS. The value of a combo operand digit (30_encoding R76) and the five reserved encodings (30_encoding R77). -/

namespace Sys2Proof.Machine

/-- The table of 30_encoding R76 and R77, by the digit's value. -/
theorem comboOf_eq : ∀ d : Digit, comboOf d =
    if d.toNat ≤ 3 then .lit (d.setWidth 2)
    else if d.toNat = 4 then .reg .a
    else if d.toNat = 5 then .reg .b
    else if d.toNat = 6 then .reg .c
    else .reserved := by decide

/-- A digit of at most 3 fits the two bits of a literal, and reads in a register as the same number. -/
theorem literal_toInt {d : Digit} (h : d.toNat ≤ 3) : ((d.setWidth 2).setWidth 64).toInt = d.toNat := by
  have hnat : ((d.setWidth 2).setWidth 64).toNat = d.toNat := by
    simp only [BitVec.toNat_setWidth]
    omega
  rw [BitVec.toInt_eq_toNat_of_lt (by omega), hnat]

/-- Settles O7, digit by digit: the table of the digits, and in each row what the operand reads. -/
theorem comboOperandValue : Obligations.ComboOperandValue := by
  intro d s
  rw [comboOf_eq]
  split_ifs with hlit
  · exact ⟨_, rfl, literal_toInt hlit⟩
  all_goals rfl

theorem combo_wf_eq_false_iff (o : Combo) : o.wf = false ↔ o = .reserved := by
  simp [Combo.wf]

/-- The five encodings that raise: combo-class with the reserved operand. -/
theorem instr_wf_eq_false_iff (i : Instr) :
    i.wf = false ↔ i = .adv .reserved ∨ i = .bst .reserved ∨ i = .out .reserved ∨ i = .bdv .reserved ∨
      i = .cdv .reserved := by
  cases i <;> simp [Instr.wf, combo_wf_eq_false_iff]

/-- Reading the combo operand comes first, so the reserved one raises before anything is written. -/
theorem exec_of_wf_eq_false {i : Instr} (h : i.wf = false) (s : State) :
    exec i s = .next (s.enterFault .reservedComboOperand) := by
  rcases (instr_wf_eq_false_iff i).mp h with rfl | rfl | rfl | rfl | rfl <;> rfl

theorem packed_of_wf_eq_false {i : Instr} (h : i.wf = false) :
    packed i = 0x07#6 ∨ packed i = 0x17#6 ∨ packed i = 0x2F#6 ∨ packed i = 0x37#6 ∨ packed i = 0x3F#6 := by
  rcases (instr_wf_eq_false_iff i).mp h with rfl | rfl | rfl | rfl | rfl <;> decide

theorem operandDigit_of_wf_eq_false {i : Instr} (h : i.wf = false) : operandDigit i = 7#3 := by
  rcases (instr_wf_eq_false_iff i).mp h with rfl | rfl | rfl | rfl | rfl <;> rfl

/-- A literal, held in two bits, never has the digit 7. -/
theorem comboDigit_literal_ne_seven : ∀ v : BitVec 2, comboDigit (.lit v) ≠ 7#3 := by decide

theorem eq_reserved_iff_comboDigit (o : Combo) : o = .reserved ↔ comboDigit o = 7#3 := by
  cases o with
  | lit v => exact iff_of_false nofun (comboDigit_literal_ne_seven v)
  | reg r => cases r <;> decide
  | reserved => exact iff_of_true rfl rfl

/-- bxl, jnz and bxc raise nothing, whatever the operand digit: STATE and CAUSE stay. -/
theorem exec_literalClass_keeps_runState_cause {i : Instr} {d : Digit}
    (h : i = .bxl d ∨ i = .jnz d ∨ i = .bxc d) (s : State) :
    ∃ t, exec i s = .next t ∧ t.runState = s.runState ∧ t.cause = s.cause := by
  rcases h with rfl | rfl | rfl
  · exact ⟨_, rfl, rfl, rfl⟩
  · by_cases ha : s.a = 0#64
    · exact ⟨s.advance, if_neg (not_not.mpr ha), rfl, rfl⟩
    · exact ⟨s.setIp (literalValue d).toNat, if_pos ha, rfl, rfl⟩
  · exact ⟨_, rfl, rfl, rfl⟩

/-- Settles O22: the five ill-formed instructions by name, the digit of the reserved operand, and the three
instructions for which operand 7 is legal. -/
theorem reservedComboRaises : Obligations.ReservedComboRaises :=
  ⟨fun _ s h => ⟨packed_of_wf_eq_false h, operandDigit_of_wf_eq_false h, exec_of_wf_eq_false h s⟩,
    eq_reserved_iff_comboDigit, fun _ s h => exec_literalClass_keeps_runState_cause h s⟩

end Sys2Proof.Machine
end

section
/-! PROOFS. The turns of a `Run` in progress: the bounds test, and the taken jump that leaves the program
(40_execution_cycle R105). -/

namespace Sys2Proof.Machine

theorem step_running {s : State} (hr : s.runState = .running) : step s = runTurn s := if_pos hr

/-- The bounds test is the first of a turn: out of bounds, it ends the `Run` and changes STATE only. -/
theorem step_running_outOfBounds {s : State} (hr : s.runState = .running) (hb : s.prog.length ≤ s.ip) :
    step s = .next (s.setRunState .haltedEnd) := by
  rw [step_running hr]
  rcases runTurn_cases s with ⟨-, e⟩ | ⟨hin, -⟩ | ⟨hin, -⟩
  · exact e
  · exact absurd hin hb.not_gt
  · exact absurd hin hb.not_gt

/-- Within bounds and with no stop on output due, a turn is one instruction. -/
theorem step_running_eq_executeOne {s : State} (hr : s.runState = .running) (hb : s.ip < s.prog.length)
    (ho : s.hofo = false ∨ s.out = []) : step s = executeOne s := by
  rw [step_running hr]
  rcases runTurn_cases s with ⟨hout, -⟩ | ⟨-, hh, hne, -⟩ | ⟨-, -, e⟩
  · exact absurd hb hout.not_gt
  · rcases ho with hclear | hempty
    · exact absurd (hh.symm.trans hclear) nofun
    · exact absurd hempty hne
  · exact e

theorem executeOne_of_fetchDecode_ok {s : State} {i : Instr} (h : fetchDecode s = .ok i) :
    executeOne s = exec i s := by
  rw [executeOne, h]

theorem ip_lt_of_fetchDecode_ok {s : State} {i : Instr} (h : fetchDecode s = .ok i) : s.ip < s.prog.length := by
  obtain ⟨_, _, hf, -⟩ := fetchDecode_ok h
  have hroom := fetch_ok_bound hf
  omega

/-- 43_control_output R150, for A not zero. -/
theorem exec_jnz_taken {s : State} (ha : s.a.toInt ≠ 0) (d : Digit) : exec (.jnz d) s = .next (s.setIp d.toNat) := by
  have hne : s.a ≠ 0#64 := fun h => ha (BitVec.toInt_inj.mpr h)
  rw [exec, execJnz, if_pos hne, literalValue_toNat]

/-- A turn that takes a jump changes ip only, so the `Run` is still in progress at the target. -/
theorem step_running_jnz_taken {s : State} {d : Digit} (hr : s.runState = .running)
    (ho : s.hofo = false ∨ s.out = []) (hf : fetchDecode s = .ok (.jnz d)) (ha : s.a.toInt ≠ 0) :
    step s = .next (s.setIp d.toNat) := by
  rw [step_running_eq_executeOne hr (ip_lt_of_fetchDecode_ok hf) ho, executeOne_of_fetchDecode_ok hf,
    exec_jnz_taken ha]

theorem ip_lt_length_iff_exists_digit (s : State) : s.ip < s.prog.length ↔ ∃ op, s.prog[s.ip]? = some op := by
  rw [← Option.isSome_iff_exists, isSome_getElem?]

/-- Settles O36: out of bounds the first test of a turn ends the `Run`; a taken jump to a target at or beyond the end
is a turn of its own, and the next one meets that test. -/
theorem runStopsOutOfBounds : Obligations.RunStopsOutOfBounds := by
  refine fun s => ⟨ip_lt_length_iff_exists_digit s, step_running_outOfBounds, fun d hr ho hf ha hd => ?_⟩
  have hjump : step s = .next (s.setIp d.toNat) := step_running_jnz_taken hr ho hf ha
  have hend : step (s.setIp d.toNat) = .next ((s.setIp d.toNat).setRunState .haltedEnd) :=
    step_running_outOfBounds hr hd
  exact ⟨s.setIp d.toNat, hjump, hend⟩

end Sys2Proof.Machine
end

section
/-! PROOFS. bxl and bxc (42_bitwise R140 and R142): the exclusive or on words, and what the two instructions write. -/

namespace Sys2Proof.Machine

/-- The packed form is `opcode * 8 + operand` (30_encoding R72). -/
theorem packed_toNat (i : Instr) : (packed i).toNat = (opcodeDigit i).toNat * 8 + (operandDigit i).toNat := by
  have hlow : (operandDigit i).toNat < 2 ^ 3 := (operandDigit i).isLt
  rw [packed, BitVec.toNat_append, ← Nat.shiftLeft_add_eq_or_of_lt hlow, Nat.shiftLeft_eq]

/-- After a legal opcode digit, an element that is no digit is refused as the operand (30_encoding R80). -/
theorem decode_eq_invalidOperandDigit {op d : Int} (hop : 0 ≤ op ∧ op ≤ 7) (hd : ¬(0 ≤ d ∧ d ≤ 7)) :
    decode op d = .error .invalidOperandDigit := by
  have ho : digitOf op = some (BitVec.ofNat 3 op.toNat) := if_pos hop
  have he : digitOf d = none := if_neg hd
  rw [decode, ho, he]

/-- The sign of an exclusive or is the exclusive or of the signs. -/
theorem xor_toInt_neg_iff (x y : Word) : (x ^^^ y).toInt < 0 ↔ ¬(x.toInt < 0 ↔ y.toInt < 0) := by
  have hmsb : (x ^^^ y).msb = true ↔ (x.msb ^^ y.msb) = true := Bool.eq_iff_iff.mp BitVec.msb_xor
  simpa only [BitVec.msb_eq_toInt, Bool.xor_iff_ne, ne_eq, decide_eq_decide, decide_eq_true_eq] using hmsb

/-- A literal is zero-extended (30_encoding R75): at every index, those above the digit included, it has the digit's
bit. -/
theorem literalValue_getLsbD (d : Digit) (k : Nat) : (literalValue d).getLsbD k = d.getLsbD k := by
  have hword : d.getLsbD k = true → k < 64 := fun hk => (BitVec.lt_of_getLsbD hk).trans (by decide)
  simpa [literalValue] using hword

theorem literalValue_toInt_nonneg (d : Digit) : 0 ≤ (literalValue d).toInt := by
  rw [BitVec.toInt_eq_toNat_of_lt (by rw [literalValue_toNat]; omega)]
  exact Int.natCast_nonneg _

theorem xor_literalValue_getLsbD (v : Word) (d : Digit) (k : Nat) :
    (v ^^^ literalValue d).getLsbD k = (v.getLsbD k ^^ d.getLsbD k) := by
  rw [BitVec.getLsbD_xor, literalValue_getLsbD]

/-- A digit has no bit at 3 or above to meet. -/
theorem xor_literalValue_getLsbD_of_ge (v : Word) (d : Digit) {k : Nat} (hk : 3 ≤ k) :
    (v ^^^ literalValue d).getLsbD k = v.getLsbD k := by
  rw [xor_literalValue_getLsbD, BitVec.getLsbD_of_ge d k hk, Bool.xor_false]

theorem xor_literalValue_toInt_neg_iff (v : Word) (d : Digit) :
    (v ^^^ literalValue d).toInt < 0 ↔ v.toInt < 0 := by
  rw [xor_toInt_neg_iff, iff_false_right (literalValue_toInt_nonneg d).not_gt, not_not]

theorem xor_literalValue_zero (v : Word) : v ^^^ literalValue 0#3 = v := BitVec.xor_zero

/-- 42_bitwise R140, in every state. -/
theorem exec_bxl (d : Digit) (s : State) :
    exec (.bxl d) s = .next { s with b := s.b ^^^ literalValue d, ip := s.ip + 2 } := rfl

/-- 42_bitwise R142, in every state and for every operand digit. -/
theorem exec_bxc (d : Digit) (s : State) :
    exec (.bxc d) s = .next { s with b := s.b ^^^ s.c, ip := s.ip + 2 } := rfl

/-- Settles O16: the packed form, and bxl's result as B xor the zero-extended literal, bit by bit and in sign. -/
theorem bxlXorsLiteralIntoB : Obligations.BxlXorsLiteralIntoB := by
  refine fun d s => ⟨packed_toNat (.bxl d), s.b ^^^ literalValue d, exec_bxl d s, ?low, ?high, ?sign, ?zero⟩
  case low => exact fun k _ => xor_literalValue_getLsbD s.b d k
  case high => exact fun _ hk => xor_literalValue_getLsbD_of_ge s.b d hk
  case sign => exact xor_literalValue_toInt_neg_iff s.b d
  case zero =>
    rintro rfl
    exact xor_literalValue_zero s.b

/-- Settles O18: the packed form, bxc's result as B xor C whatever the operand digit, and the refusal of an element
that is no digit. -/
theorem bxcXorsCIntoB : Obligations.BxcXorsCIntoB := by
  refine ⟨fun d s => ⟨packed_toNat (.bxc d), s.b ^^^ s.c, exec_bxc d s, ?bits, ?equal, ?sign⟩, ?refused⟩
  case bits => exact fun _ => BitVec.getLsbD_xor
  case equal =>
    intro heq
    rw [heq, BitVec.xor_self]
  case sign => exact xor_toInt_neg_iff s.b s.c
  case refused => exact fun _ hv => decode_eq_invalidOperandDigit (by decide) hv

end Sys2Proof.Machine
end

section
/-! PROOFS. jnz (43_control_output R150): the branch not taken, the fetch at a target beyond the end, and the jump to
its own index. -/

namespace Sys2Proof.Machine

/-- 43_control_output R150, for A zero. -/
theorem exec_jnz_not_taken {s : State} (ha : s.a.toInt = 0) (d : Digit) : exec (.jnz d) s = .next s.advance := by
  have hzero : s.a = 0#64 := BitVec.toInt_inj.mp ha
  rw [exec, execJnz, if_neg (not_not.mpr hzero)]

theorem fetchDecode_outOfBounds {s : State} (hb : s.prog.length ≤ s.ip) :
    fetchDecode s = .error .fetchOutOfBounds := by
  have hnone : s.memRead s.ip = none := List.getElem?_eq_none hb
  rw [fetchDecode, fetch, hnone]

theorem executeOne_of_fetchDecode_error {s : State} {f : Cause} (h : fetchDecode s = .error f) :
    executeOne s = raise f s := by
  rw [executeOne, h]

/-- The bounds test of the fetch is the first check of `execute_one` (40_execution_cycle R100). -/
theorem executeOne_outOfBounds {s : State} (hb : s.prog.length ≤ s.ip) :
    executeOne s = .next (s.enterFault .fetchOutOfBounds) := by
  rw [executeOne_of_fetchDecode_error (fetchDecode_outOfBounds hb), raise_eq]

/-- A taken jump whose target is its own index is a turn that keeps the whole state (40_execution_cycle R107). -/
theorem step_running_jnz_self {s : State} {d : Digit} (hr : s.runState = .running)
    (ho : s.hofo = false ∨ s.out = []) (hf : fetchDecode s = .ok (.jnz d)) (ha : s.a.toInt ≠ 0)
    (hself : s.ip = d.toNat) : step s = .next s := by
  rw [step_running_jnz_taken hr ho hf ha, ← hself]
  rfl

/-- Settles O19: the packed form, the two branches, the target at or beyond the end under `execute_one` and inside a
`Run`, and the self-loop. -/
theorem jnzJumpsOnNonzeroA : Obligations.JnzJumpsOnNonzeroA := by
  refine fun d s => ⟨packed_toNat (.jnz d), fun ha => exec_jnz_taken ha d, fun ha => exec_jnz_not_taken ha d, ?beyond,
    fun ha hr ho hf hself => step_running_jnz_self hr ho hf ha hself⟩
  case beyond =>
    intro hd
    have hb : (s.setIp d.toNat).prog.length ≤ (s.setIp d.toNat).ip := hd
    exact ⟨executeOne_outOfBounds hb, fun hr => step_running_outOfBounds hr hb⟩

end Sys2Proof.Machine
end

section
/-! PROOFS. Which instruction raises which execution fault (60_exceptions R163). -/

namespace Sys2Proof.Machine

/-- What `bst` can do (42_bitwise R141). -/
theorem execBst_cases (src : Combo) (s : State) :
    (∃ v, comboValue src s = .ok v ∧ execBst src s = .next (s.setReg .b ((mod8 v).setWidth 64)).advance) ∨
    (src = .reserved ∧ execBst src s = .next (s.enterFault .reservedComboOperand)) := by
  cases hc : comboValue src s with
  | error f =>
    obtain ⟨rfl, rfl⟩ := comboValue_error hc
    exact .inr ⟨rfl, rfl⟩
  | ok v => exact .inl ⟨v, rfl, by rw [execBst, hc]⟩

/-- What `out` can do: the operand is read before the capacity of the buffer is looked at (43_control_output R151). -/
theorem execOut_cases (src : Combo) (s : State) :
    (∃ v, comboValue src s = .ok v ∧ s.outFull = false ∧ execOut src s = .next (s.outAppend (mod8 v)).advance) ∨
    (src = .reserved ∧ execOut src s = .next (s.enterFault .reservedComboOperand)) ∨
    (∃ v, comboValue src s = .ok v ∧ s.outFull = true ∧ execOut src s = .next (s.enterFault .outputOverflow)) := by
  cases hc : comboValue src s with
  | error f =>
    obtain ⟨rfl, rfl⟩ := comboValue_error hc
    exact .inr (.inl ⟨rfl, rfl⟩)
  | ok v =>
    cases hfull : s.outFull with
    | false => exact .inl ⟨v, rfl, rfl, by simp [execOut, hc, hfull]⟩
    | true => exact .inr (.inr ⟨v, rfl, rfl, by simp [execOut, hc, hfull, raise_eq]⟩)

/-- A shift instruction that faults was given the reserved operand, or was refused by `shr`. -/
theorem shiftDivide_faulted_cause {dst : Reg} {src : Combo} {s t : State} (hs : s.runState ≠ .faulted)
    (h : shiftDivide dst src s = .next t) (ht : t.runState = .faulted) :
    t.cause = .reservedComboOperand ∨ t.cause = .negativeShiftAmount ∨ t.cause = .negativeDividend := by
  rcases shiftDivide_cases dst src s with ⟨_, q, -, -, e⟩ | ⟨-, e⟩ | ⟨_, f, -, hf, e⟩ <;> rw [e] at h <;> cases h
  · exact absurd (by simpa using ht) hs
  · exact .inl rfl
  · exact .inr (shr_error hf)

theorem execBst_faulted_cause {src : Combo} {s t : State} (hs : s.runState ≠ .faulted)
    (h : execBst src s = .next t) (ht : t.runState = .faulted) : t.cause = .reservedComboOperand := by
  rcases execBst_cases src s with ⟨v, -, e⟩ | ⟨-, e⟩ <;> rw [e] at h <;> cases h
  · exact absurd ht hs
  · rfl

theorem execOut_faulted_cause {src : Combo} {s t : State} (hs : s.runState ≠ .faulted)
    (h : execOut src s = .next t) (ht : t.runState = .faulted) :
    t.cause = .reservedComboOperand ∨ t.cause = .outputOverflow := by
  rcases execOut_cases src s with ⟨v, -, -, e⟩ | ⟨-, e⟩ | ⟨v, -, -, e⟩ <;> rw [e] at h <;> cases h
  · exact absurd ht hs
  · exact .inl rfl
  · exact .inr rfl

/-- bxl, jnz and bxc raise no execution fault (60_exceptions R163). -/
theorem exec_literalClass_not_faulted {i : Instr} {d : Digit} {s t : State}
    (hi : i = .bxl d ∨ i = .jnz d ∨ i = .bxc d) (hs : s.runState ≠ .faulted) (h : exec i s = .next t) :
    t.runState ≠ .faulted := by
  obtain ⟨t', h', hrun, -⟩ := exec_literalClass_keeps_runState_cause hi s
  cases h.symm.trans h'
  exact hrun ▸ hs

/-- Settles O23, instruction by instruction: the causes each can fault with, and none for the three whose operand is
not a combo. -/
theorem executionFaultsByInstruction : Obligations.ExecutionFaultsByInstruction := by
  intro i s t hs h ht
  cases i with
  | adv src =>
    exact (shiftDivide_faulted_cause hs h ht).imp (⟨·, src, .inl rfl⟩) fun hc => .inl ⟨hc, src, .inl rfl⟩
  | bdv src =>
    exact (shiftDivide_faulted_cause hs h ht).imp (⟨·, src, .inr (.inr (.inr (.inl rfl)))⟩)
      fun hc => .inl ⟨hc, src, .inr (.inl rfl)⟩
  | cdv src =>
    exact (shiftDivide_faulted_cause hs h ht).imp (⟨·, src, .inr (.inr (.inr (.inr rfl)))⟩)
      fun hc => .inl ⟨hc, src, .inr (.inr rfl)⟩
  | bst src => exact .inl ⟨execBst_faulted_cause hs h ht, src, .inr (.inl rfl)⟩
  | out src =>
    exact (execOut_faulted_cause hs h ht).imp (⟨·, src, .inr (.inr (.inl rfl))⟩) fun hc => .inr ⟨hc, src, rfl⟩
  | bxl d => exact absurd ht (exec_literalClass_not_faulted (.inl rfl) hs h)
  | jnz d => exact absurd ht (exec_literalClass_not_faulted (.inr (.inl rfl)) hs h)
  | bxc d => exact absurd ht (exec_literalClass_not_faulted (.inr (.inr rfl)) hs h)

end Sys2Proof.Machine
end

section
/-! PROOFS. A `Load` of even length within `PROG_MAX`, and the launch state it leaves (70_reset_and_hazards R195). -/

namespace Sys2Proof.Machine

theorem evenLength_iff (p : List Int) : Program.evenLength p = true ↔ p.length % 2 = 0 := beq_iff_eq

/-- Both checks of a `Load` pass (40_execution_cycle R110): the length against `PROG_MAX`, then its evenness. -/
theorem commandLoad_accepted {p : List Int} {s : State} (hm : Program.lenMax s.params p = true)
    (he : Program.evenLength p = true) (a b c : Word) : commandLoad p a b c s = .next (s.loaded p a b c) := by
  simp [commandLoad, hm, he]

theorem issue_load {s : State} (hr : s.runState ≠ .running) (p : List Int) (a b c : Word) :
    issue (.load p a b c) s = commandLoad p a b c s := if_neg hr

theorem loaded_isLaunch (s : State) (p : List Int) (a b c : Word) : (s.loaded p a b c).IsLaunch p a b c := by
  constructor <;> simp

/-- Settles O31: the pending `Load` is taken, passes both checks, and what it leaves is a launch with the frame of
`State.loaded`. -/
theorem loadGivesLaunch : Obligations.LoadGivesLaunch := by
  intro s p a b c rest hr hc heven hm
  have hstep : step s = .next ((s.setCommands rest).loaded p a b c) := by
    rw [step_eq_issue hr hc, issue_load (s := s.setCommands rest) hr,
      commandLoad_accepted (s := s.setCommands rest) hm ((evenLength_iff p).mpr heven)]
  exact ⟨_, hstep, loaded_isLaunch _ p a b c, rfl, rfl, rfl⟩

end Sys2Proof.Machine
end

section
/-! PROOFS. Decoding and encoding are inverse (30_encoding R70 to R80): the digits, the operand forms and the opcode
map, each with its inverse, and the packed form. -/

namespace Sys2Proof

theorem digitOf_natCast_toNat (d : Digit) : digitOf (d.toNat : Int) = some d := by
  have hlt : d.toNat < 8 := d.isLt
  rw [digitOf, if_pos (by omega), Int.toNat_natCast, BitVec.ofNat_toNat, BitVec.setWidth_eq]

/-- A program element is a digit exactly when it is that digit's value (30_encoding R80). -/
theorem digitOf_eq_some_iff (v : Int) (d : Digit) : digitOf v = some d ↔ (d.toNat : Int) = v := by
  constructor
  · intro h
    obtain ⟨⟨hlow, hhigh⟩, rfl⟩ : (0 ≤ v ∧ v ≤ 7) ∧ BitVec.ofNat 3 v.toNat = d := by
      simpa [digitOf] using h
    rw [BitVec.toNat_ofNat]
    omega
  · rintro rfl
    exact digitOf_natCast_toNat d

theorem digitOf_eq_none {v : Int} (h : ¬(0 ≤ v ∧ v ≤ 7)) : digitOf v = none := if_neg h

theorem exists_digitOf_eq_some {v : Int} (h : 0 ≤ v ∧ v ≤ 7) : ∃ d, digitOf v = some d := ⟨_, if_pos h⟩

theorem comboOf_comboDigit (o : Combo) : comboOf (comboDigit o) = o := by
  cases o with
  | lit v => revert v; decide
  | reg r => cases r <;> rfl
  | reserved => rfl

/-- The opcode map names each instruction by its two digits. -/
theorem instrOf_opcodeDigit_operandDigit (i : Instr) : instrOf (opcodeDigit i) (operandDigit i) = i := by
  cases i with
  | adv src => exact congrArg Instr.adv (comboOf_comboDigit src)
  | bst src => exact congrArg Instr.bst (comboOf_comboDigit src)
  | out src => exact congrArg Instr.out (comboOf_comboDigit src)
  | bdv src => exact congrArg Instr.bdv (comboOf_comboDigit src)
  | cdv src => exact congrArg Instr.cdv (comboOf_comboDigit src)
  | bxl d => rfl
  | jnz d => rfl
  | bxc d => rfl

/-- No two pairs of digits share an instruction, over the 64 of 30_encoding R79. -/
theorem opcodeDigit_operandDigit_instrOf :
    ∀ o e : Digit, opcodeDigit (instrOf o e) = o ∧ operandDigit (instrOf o e) = e := by decide

theorem instrOf_eq_iff (o e : Digit) (i : Instr) : instrOf o e = i ↔ opcodeDigit i = o ∧ operandDigit i = e := by
  constructor
  · rintro rfl
    exact opcodeDigit_operandDigit_instrOf o e
  · rintro ⟨rfl, rfl⟩
    exact instrOf_opcodeDigit_operandDigit i

/-- A pair decodes when both elements are digits, and then by the opcode map. -/
theorem decode_eq_ok_iff (op d : Int) (i : Instr) :
    decode op d = .ok i ↔ ∃ o e, digitOf op = some o ∧ digitOf d = some e ∧ instrOf o e = i := by
  cases ho : digitOf op with
  | none => simp [decode, ho]
  | some o => cases he : digitOf d <;> simp [decode, ho, he]

theorem decode_digits (o e : Digit) : decode (o.toNat : Int) (e.toNat : Int) = .ok (instrOf o e) :=
  (decode_eq_ok_iff _ _ _).mpr ⟨o, e, digitOf_natCast_toNat o, digitOf_natCast_toNat e, rfl⟩

theorem encode_eq_iff (i : Instr) (op d : Int) :
    encode i = (op, d) ↔ ((opcodeDigit i).toNat : Int) = op ∧ ((operandDigit i).toNat : Int) = d := Prod.mk_inj

/-- Settles O2: a pair decodes to `i` exactly when its elements are the digits of an opcode-map entry for `i`, and the
map has one entry for each instruction. -/
theorem decodeInvertsEncode : Obligations.DecodeInvertsEncode := by
  intro op d i
  calc decode op d = .ok i
    _ ↔ ∃ o e, digitOf op = some o ∧ digitOf d = some e ∧ instrOf o e = i := decode_eq_ok_iff op d i
    _ ↔ digitOf op = some (opcodeDigit i) ∧ digitOf d = some (operandDigit i) := by simp [instrOf_eq_iff]
    _ ↔ encode i = (op, d) := by rw [digitOf_eq_some_iff, digitOf_eq_some_iff, encode_eq_iff]

theorem decode_encode (i : Instr) : decode (encode i).1 (encode i).2 = .ok i := (decodeInvertsEncode _ _ i).mpr rfl

theorem decode_eq_invalidOpcodeDigit {op : Int} (h : ¬(0 ≤ op ∧ op ≤ 7)) (d : Int) :
    decode op d = .error .invalidOpcodeDigit := by
  rw [decode, digitOf_eq_none h]

/-- Settles O3: the opcode digit is looked at first, then the operand digit, and two digits always decode. -/
theorem decodeRefusesByDigit : Obligations.DecodeRefusesByDigit := by
  refine fun op d => ⟨fun hop => decode_eq_invalidOpcodeDigit hop d, Machine.decode_eq_invalidOperandDigit,
    fun hop hd => ?_⟩
  obtain ⟨o, ho⟩ := exists_digitOf_eq_some hop
  obtain ⟨e, he⟩ := exists_digitOf_eq_some hd
  exact ⟨_, (decode_eq_ok_iff op d _).mpr ⟨o, e, ho, he, rfl⟩⟩

/-- The two digits of a packed value stand at its bits 5..3 and 2..0, and 6 bits or more hold both. -/
theorem packed_split (i : Instr) {nbits : Nat} (h : 6 ≤ nbits) :
    (packed i).toNat % 2 ^ nbits / 8 = (opcodeDigit i).toNat ∧
      (packed i).toNat % 2 ^ nbits % 8 = (operandDigit i).toNat := by
  have hop : (opcodeDigit i).toNat < 8 := (opcodeDigit i).isLt
  have hod : (operandDigit i).toNat < 8 := (operandDigit i).isLt
  have hfits : 2 ^ 6 ≤ 2 ^ nbits := Nat.pow_le_pow_right (by decide) h
  rw [Machine.packed_toNat, Nat.mod_eq_of_lt (by omega)]
  omega

/-- Settles O4: the packed value's two parts are the digits of the encoding, which decode to the instruction. -/
theorem packedWordDecodes : Obligations.PackedWordDecodes := by
  intro i nbits h
  obtain ⟨hop, hod⟩ := packed_split i h
  refine ⟨by rw [Machine.packed_toNat]; exact Nat.cast_add _ _, ?_⟩
  rw [decodeTableWord, hop, hod, decode_digits, instrOf_opcodeDigit_operandDigit]

/-- Settles O1, each word by evaluation of the decoder. -/
theorem specWordsDecode : Obligations.SpecWordsDecode := by
  unfold Obligations.SpecWordsDecode
  decide

end Sys2Proof
end

section
/-! PROOFS. The text forms of 30_encoding R83 and R85: the listing of an assembled program, and the assembly line. -/

namespace Sys2Proof.Machine

theorem disassemble_assemble (is : List Instr) : disassemble (assemble is) = is.map .ok := by
  induction is with
  | nil => rfl
  | cons i is ih => rw [assemble, disassemble, decode_encode, ih, List.map_cons]

theorem assemble_length (is : List Instr) : (assemble is).length = 2 * is.length := by
  induction is with
  | nil => rfl
  | cons i is ih => simp only [assemble, List.length_cons, ih]; omega

theorem encode_in_range (i : Instr) :
    (0 ≤ (encode i).1 ∧ (encode i).1 ≤ 7) ∧ 0 ≤ (encode i).2 ∧ (encode i).2 ≤ 7 := by
  have hop : (opcodeDigit i).toNat < 8 := (opcodeDigit i).isLt
  have hod : (operandDigit i).toNat < 8 := (operandDigit i).isLt
  simp only [encode]
  omega

theorem digits_assemble (is : List Instr) : Program.digits (assemble is) = true := by
  induction is with
  | nil => rfl
  | cons i is ih =>
    obtain ⟨hop, hod⟩ := encode_in_range i
    rw [Program.digits] at ih ⊢
    simp only [assemble, List.all_cons, ih, hop, hod, and_self, decide_true, Bool.and_true]

/-- Settles O5: pair by pair, by induction on the list of instructions. -/
theorem listingOfAssembledProgram : Obligations.ListingOfAssembledProgram := by
  refine fun is => ⟨disassemble_assemble is, (evenLength_iff _).mpr ?_, digits_assemble is⟩
  rw [assemble_length, Nat.mul_mod_right]

theorem stripComment_of_notMem {line : List Char} (h : '#' ∉ line) : stripComment line = line := by
  induction line with
  | nil => rfl
  | cons ch rest ih =>
    obtain ⟨hch, hrest⟩ := not_or.mp (mt List.mem_cons.mpr h)
    rw [stripComment, if_neg (Ne.symm hch), ih hrest]

/-- A space ends the word under way. -/
theorem lineWords_append_space (m word rest : List Char) (hm : ' ' ∉ m) (hne : word ++ m ≠ []) :
    lineWords word (m ++ ' ' :: rest) = (word ++ m) :: lineWords [] rest := by
  induction m generalizing word with
  | nil =>
    rw [List.append_nil] at hne ⊢
    rw [List.nil_append, lineWords, if_pos rfl, if_neg hne]
  | cons ch m ih =>
    obtain ⟨hch, hm⟩ := not_or.mp (mt List.mem_cons.mpr hm)
    rw [List.cons_append, lineWords, if_neg (Ne.symm hch), ih _ hm (by simp), List.append_assoc, List.singleton_append]

theorem lineWords_single {ch : Char} (h : ch ≠ ' ') : lineWords [] [ch] = [[ch]] := by
  simp [lineWords, h]

theorem mnemonicChars_plain (i : Instr) : '#' ∉ mnemonicChars i ∧ ' ' ∉ mnemonicChars i ∧ mnemonicChars i ≠ [] := by
  cases i <;> simp [mnemonicChars]

theorem digitChar_plain : ∀ d : Digit, digitChar d ≠ '#' ∧ digitChar d ≠ ' ' := by decide

/-- An assembly line has two words, the mnemonic and the operand digit. -/
theorem lineWords_assemblyLine (i : Instr) :
    lineWords [] (stripComment (assemblyLine i)) = [mnemonicChars i, [digitChar (operandDigit i)]] := by
  obtain ⟨hhash, hspace, hne⟩ := mnemonicChars_plain i
  obtain ⟨hdhash, hdspace⟩ := digitChar_plain (operandDigit i)
  have hstrip : stripComment (assemblyLine i) = assemblyLine i :=
    stripComment_of_notMem (by simp [assemblyLine, hhash, hdhash.symm])
  rw [hstrip, assemblyLine, lineWords_append_space _ _ _ hspace hne, lineWords_single hdspace, List.nil_append]

theorem opcodeOfMnemonic_mnemonicChars (i : Instr) : opcodeOfMnemonic (mnemonicChars i) = some (opcodeDigit i) := by
  cases i <;> rfl

/-- A digit is an operand with every opcode, combo-class or not. -/
theorem operandOfWord_digitChar : ∀ op d : Digit, operandOfWord op [digitChar d] = some d := by decide

/-- Settles O6: the line's two words, and what each of them stands for. -/
theorem assemblyLineAssembles : Obligations.AssemblyLineAssembles := by
  intro i
  simp only [assembleLine, lineWords_assemblyLine, opcodeOfMnemonic_mnemonicChars, operandOfWord_digitChar, encode]

end Sys2Proof.Machine
end

section
/-! PROOFS. What an instruction that completes leaves unchanged, and the two outcomes of `execute_one`. -/

namespace Sys2Proof.Machine

/-- `t` is `s` after an instruction that raised nothing: the frame every such instruction keeps, the index it goes on
at, and at most one digit appended where the buffer has room (10_state R25, 20_memory R57). -/
structure Completes (s t : State) : Prop where
  prog : t.prog = s.prog
  runState : t.runState = s.runState
  cause : t.cause = s.cause
  hofo : t.hofo = s.hofo
  params : t.params = s.params
  commands : t.commands = s.commands
  freeDraws : t.freeDraws = s.freeDraws
  ip : t.ip = s.ip + 2 ∨ t.ip ≤ 7
  out : t.out = s.out ∨ s.outFull = false ∧ ∃ d, t.out = s.out ++ [d]

theorem ExecEffect.completes_or_faults {s t : State} (h : ExecEffect s t) :
    (∃ f, isExecFault f ∧ t = s.enterFault f) ∨ Completes s t := by
  cases h with
  | faulted f hf => exact .inl ⟨f, hf, rfl⟩
  | wrote r v => exact .inr (by constructor <;> simp)
  | jumped d =>
    have hd : d.toNat ≤ 7 := Nat.le_of_lt_succ d.isLt
    exact .inr ⟨rfl, rfl, rfl, rfl, rfl, rfl, rfl, .inr hd, .inl rfl⟩
  | fellThrough => exact .inr (by constructor <;> simp)
  | emitted d hroom => exact .inr (by constructor <;> simp [hroom])

/-- `execute_one` raises a fault of fetch, decode or the instruction, or runs an instruction with room for the
advance. -/
theorem executeOne_completes_or_faults {s t : State} (h : executeOne s = .next t) :
    (∃ f, (isFetchFault f ∨ isExecFault f) ∧ t = s.enterFault f) ∨ (s.ip + 2 ≤ s.prog.length ∧ Completes s t) := by
  rcases executeOne_effect h with hfault | ⟨hb, he⟩
  · exact .inl hfault
  · rcases he.completes_or_faults with ⟨f, hf, rfl⟩ | hc
    · exact .inl ⟨f, .inr hf, rfl⟩
    · exact .inr ⟨hb, hc⟩

/-- The faults of fetch, decode and the instructions are none of the two that the host's commands raise, and each has
a code (60_exceptions R160). -/
theorem stepFault_ne {f : Cause} (h : isFetchFault f ∨ isExecFault f) :
    f ≠ .none ∧ f ≠ .invalidProgramLength ∧ f ≠ .notLoaded := by
  rcases h with (rfl | rfl | rfl | rfl | rfl) | (rfl | rfl | rfl | rfl) <;> decide

/-- What `execute_one` never touches, fault or no fault. -/
theorem executeOne_frame {s t : State} (h : executeOne s = .next t) :
    t.prog = s.prog ∧ t.hofo = s.hofo ∧ t.params = s.params ∧ t.commands = s.commands := by
  rcases executeOne_completes_or_faults h with ⟨f, -, rfl⟩ | ⟨-, hc⟩
  · exact ⟨rfl, rfl, rfl, rfl⟩
  · exact ⟨hc.prog, hc.hofo, hc.params, hc.commands⟩

theorem executeOne_out {s t : State} (h : executeOne s = .next t) : t.out = s.out ∨ ∃ d, t.out = s.out ++ [d] := by
  rcases executeOne_completes_or_faults h with ⟨f, -, rfl⟩ | ⟨-, hc⟩
  · exact .inl rfl
  · exact hc.out.imp_right And.right

/-- STATE and CAUSE after `execute_one`: a fault with its code, or both kept. -/
theorem executeOne_runState {s t : State} (h : executeOne s = .next t) :
    (t.runState = .faulted ∧ t.cause ≠ .none) ∨ (t.runState = s.runState ∧ t.cause = s.cause) := by
  rcases executeOne_completes_or_faults h with ⟨f, hf, rfl⟩ | ⟨-, hc⟩
  · exact .inl ⟨rfl, (stepFault_ne hf).1⟩
  · exact .inr ⟨hc.runState, hc.cause⟩

/-- A step leaves the host's list as it is, or takes its first command off. -/
theorem StepEffect.commands {s t : State} (h : StepEffect s t) :
    (s.runState = .running ∧ t.commands = s.commands) ∨
    (s.runState ≠ .running ∧ s.commands = [] ∧ t = s) ∨
    (s.runState ≠ .running ∧ ∃ cmd, s.commands = cmd :: t.commands) := by
  cases h with
  | haltEnd hr | haltOutput hr => exact .inl ⟨hr, rfl⟩
  | turn _ hr _ _ he =>
    obtain ⟨-, -, -, hcommands⟩ := executeOne_frame he
    exact .inl ⟨hr, hcommands⟩
  | idle hr hc => exact .inr (.inl ⟨hr, hc, rfl⟩)
  | loaded p a b c rest hr hc | failedLoad p a b c rest hr hc => exact .inr (.inr ⟨hr, _, hc⟩)
  | notLoaded cmd rest hr hc | sticky cmd rest hr hc => exact .inr (.inr ⟨by simp [hr], _, hc⟩)
  | observed cmd rest hr hc => exact .inr (.inr ⟨hr, _, hc⟩)
  | runStarted _ rest hr hc =>
    exact .inr (.inr ⟨by rcases hr with hr | hr | hr <;> simp [hr], _, hc⟩)
  | stepped u rest hr hc he =>
    obtain ⟨-, -, -, hcommands⟩ := executeOne_frame he
    have hu : u.commands = rest := hcommands
    refine .inr (.inr ⟨by rcases hr with hr | hr | hr <;> simp [hr], .step, ?_⟩)
    rw [apply_ite State.commands, State.setRunState_commands, ite_self, hu, hc]

end Sys2Proof.Machine
end

section
/-! PROOFS. Every step keeps the fields of the state consistent (10_state R26, R29, R31, R32 and R39). -/

namespace Sys2Proof.Machine

theorem State.Consistent.cause_none {s : State} (h : s.Consistent) (hf : s.runState ≠ .faulted) : s.cause = .none :=
  h.causeIff.mpr hf

theorem buffersHeld_of_cause_none {s : State} (h : s.cause = .none) : s.buffersHeld = true := by
  simp [State.buffersHeld, h]

theorem State.isIdle.not_faulted {s : State} (h : s.isIdle) : s.runState ≠ .faulted := by
  rcases h with h | h | h <;> simp [h]

theorem State.isIdle.not_unloaded {s : State} (h : s.isIdle) : s.runState ≠ .unloaded := by
  rcases h with h | h | h <;> simp [h]

/-- Loaded and not FAULTED, the registers hold values. -/
theorem State.Consistent.registersHeld {s : State} (h : s.Consistent) (hu : s.runState ≠ .unloaded)
    (hf : s.runState ≠ .faulted) : s.registersHeld = true := by
  have hc : s.cause = .none := h.cause_none hf
  simp [registersHeld_iff, hu, hc]

/-- In READY and RUNNING only CAUSE, the two spaces and the bound of `ip` are at stake: the other rules of
`State.Consistent` speak of other states. -/
theorem consistent_of_live {t : State} (hr : t.runState = .running ∨ t.runState = .ready) (hc : t.cause = .none)
    (hm : Memory.wf t = true) (hip : t.ip ≤ max t.prog.length 7) : t.Consistent := by
  constructor
  case memory => exact hm
  case ipBound => exact fun _ => hip
  all_goals rcases hr with hr | hr <;> simp [hr, hc]

/-- The host's list is the model's own: no rule speaks of it. -/
theorem State.Consistent.setCommands {s : State} (h : s.Consistent) (cs : List Command) :
    (s.setCommands cs).Consistent :=
  ⟨h.causeIff, h.beforeLoad, h.failedLoadHofo, h.memory, h.ipBound, h.endHalt, h.outputHalt⟩

/-- A fault of fetch, decode or an instruction is raised in a state that holds values, and keeps them. -/
theorem State.Consistent.enterFault {s : State} (h : s.Consistent) (hu : s.runState ≠ .unloaded)
    (hf : s.runState ≠ .faulted) {f : Cause} (hfault : isFetchFault f ∨ isExecFault f) :
    (s.enterFault f).Consistent := by
  obtain ⟨hnone, hlength, hnotLoaded⟩ := stepFault_ne hfault
  have hheld : s.buffersHeld = true := buffersHeld_of_cause_none (h.cause_none hf)
  constructor
  case memory => exact Memory.wf_enterFault h.memory hheld f
  case ipBound => exact fun _ => h.ipBound (h.registersHeld hu hf)
  all_goals simp [hnone, hlength, hnotLoaded]

theorem State.Consistent.enterFault_notLoaded {s : State} (h : s.Consistent) (hu : s.runState = .unloaded) :
    (s.enterFault .notLoaded).Consistent := by
  have hheld : s.buffersHeld = true := buffersHeld_of_cause_none (h.cause_none (by simp [hu]))
  constructor
  case memory => exact Memory.wf_enterFault h.memory hheld _
  case beforeLoad => exact fun _ => h.beforeLoad (.inl hu)
  all_goals simp [State.registersHeld]

theorem Completes.memory_wf {s t : State} (hc : Completes s t) (h : Memory.wf s = true) : Memory.wf t = true := by
  rcases hc.out with hout | ⟨hroom, d, hout⟩
  · rwa [Memory.wf_congr hc.prog hout hc.params hc.cause]
  · rw [Memory.wf_congr (s := s.outAppend d) hc.prog hout hc.params hc.cause]
    exact Memory.wf_outAppend h hroom d

/-- An instruction that completes leaves what READY and RUNNING ask for; the end of the program is at most
`max(len(prog), 7)`, and so is a jump's target (10_state R26). -/
theorem Completes.consistent_setRunState {s t : State} (hc : Completes s t) (h : s.Consistent)
    (hf : s.runState ≠ .faulted) (hb : s.ip + 2 ≤ s.prog.length) {r : RunState} (hr : r = .running ∨ r = .ready) :
    (t.setRunState r).Consistent := by
  have hip : t.ip ≤ max t.prog.length 7 := by
    rw [hc.prog]
    rcases hc.ip with hip | hip <;> omega
  refine consistent_of_live hr (hc.cause.trans (h.cause_none hf)) ?_ hip
  exact (Memory.wf_congr rfl rfl rfl rfl).trans (hc.memory_wf h.memory)

/-- `execute_one` inside a `Run`: RUNNING is kept, or a fault is entered. -/
theorem State.Consistent.executeOne_running {s t : State} (h : s.Consistent) (hr : s.runState = .running)
    (he : executeOne s = .next t) : t.Consistent := by
  have hf : s.runState ≠ .faulted := by simp [hr]
  rcases executeOne_completes_or_faults he with ⟨f, hfault, rfl⟩ | ⟨hb, hc⟩
  · exact h.enterFault (by simp [hr]) hf hfault
  · have hkept : t.setRunState .running = t := by rw [← hr, ← hc.runState]; rfl
    exact hkept ▸ hc.consistent_setRunState h hf hb (.inl rfl)

/-- `execute_one` under `Step`: READY follows, or a fault is entered. -/
theorem State.Consistent.executeOne_step {s u : State} (h : s.Consistent) (hi : s.isIdle)
    (he : executeOne s = .next u) : (if u.runState = .faulted then u else u.setRunState .ready).Consistent := by
  rcases executeOne_completes_or_faults he with ⟨f, hfault, rfl⟩ | ⟨hb, hc⟩
  · exact h.enterFault hi.not_unloaded hi.not_faulted hfault
  · rw [if_neg (hc.runState ▸ hi.not_faulted)]
    exact hc.consistent_setRunState h hi.not_faulted hb (.inr rfl)

/-- Entering HALTED_END from a `Run` (10_state R31). -/
theorem State.Consistent.haltEnd {s : State} (h : s.Consistent) (hr : s.runState = .running)
    (hb : s.prog.length ≤ s.ip) : (s.setRunState .haltedEnd).Consistent := by
  have hf : s.runState ≠ .faulted := by simp [hr]
  have hc : s.cause = .none := h.cause_none hf
  constructor
  case memory => exact (Memory.wf_congr rfl rfl rfl rfl).trans h.memory
  case ipBound => exact fun _ => h.ipBound (h.registersHeld (by simp [hr]) hf)
  case endHalt => exact fun _ => hb
  all_goals simp [hc]

/-- Entering HALTED_OUTPUT from a `Run` (10_state R31). -/
theorem State.Consistent.haltOutput {s : State} (h : s.Consistent) (hr : s.runState = .running)
    (hb : s.ip < s.prog.length) (hh : s.hofo = true) (ho : s.out ≠ []) :
    (s.setRunState .haltedOutput).Consistent := by
  have hf : s.runState ≠ .faulted := by simp [hr]
  have hc : s.cause = .none := h.cause_none hf
  constructor
  case memory => exact (Memory.wf_congr rfl rfl rfl rfl).trans h.memory
  case ipBound => exact fun _ => h.ipBound (h.registersHeld (by simp [hr]) hf)
  case outputHalt => exact fun _ => ⟨hh, ho, hb⟩
  all_goals simp [hc]

/-- `Run(h)` from an idle state enters RUNNING with the fields as they were. -/
theorem State.Consistent.startRun {s : State} (h : s.Consistent) (hi : s.isIdle) (hofo : Bool) :
    ((s.setHofo hofo).setRunState .running).Consistent :=
  consistent_of_live (.inl rfl) (h.cause_none hi.not_faulted) ((Memory.wf_congr rfl rfl rfl rfl).trans h.memory)
    (h.ipBound (h.registersHeld hi.not_unloaded hi.not_faulted))

theorem failedLoad_consistent (s : State) : s.failedLoad.Consistent := by
  constructor
  case memory => exact Memory.wf_failedLoad s
  all_goals simp

/-- Settles O51, effect by effect of a step: each state it can enter from a consistent one is consistent. -/
theorem stepKeepsConsistent : Obligations.StepKeepsConsistent := by
  intro s t h hstep
  cases step_effect hstep with
  | haltEnd hr hb => exact h.haltEnd hr hb
  | haltOutput hr hb hh ho => exact h.haltOutput hr hb hh ho
  | turn _ hr _ _ he => exact h.executeOne_running hr he
  | idle => exact h
  | loaded p a b c rest _ _ hm he =>
    exact consistent_of_live (.inr rfl) rfl (Memory.wf_loaded he hm a b c) (Nat.zero_le _)
  | failedLoad => exact failedLoad_consistent _
  | notLoaded _ rest hr => exact (h.setCommands rest).enterFault_notLoaded hr
  | sticky _ rest => exact h.setCommands rest
  | stepped u rest hr _ he => exact (h.setCommands rest).executeOne_step hr he
  | runStarted hofo rest hr => exact (h.setCommands rest).startRun hr hofo
  | observed _ rest => exact h.setCommands rest

/-- The power-on state is consistent: nothing is loaded and nothing has faulted (10_state R39). -/
theorem reset_consistent : State.reset.Consistent := by
  constructor
  case memory => exact Memory.wf_reset
  all_goals decide

theorem reset_registersHeld : State.reset.registersHeld = false := rfl

/-- Settles O53: the rules of `State.Consistent` on the power-on fields; no register holds a value there, and no
`Load` is pending. -/
theorem resetMeetsInvariants : Obligations.ResetMeetsInvariants :=
  ⟨reset_consistent, fun h => absurd (reset_registersHeld.symm.trans h) nofun, nofun⟩

end Sys2Proof.Machine
end

section
/-! PROOFS. The shared operation `shr` (41_shift_divide R133): its result for every amount and dividend, and its
range. -/

namespace Sys2Proof.Machine

theorem floorDiv_eq_ediv (a : Int) (k : Nat) : floorDiv a k = a / 2 ^ k := by
  rw [floorDiv, Nat.cast_pow, Nat.cast_ofNat]

theorem truncDiv_eq_tdiv (a : Int) (k : Nat) : truncDiv a k = a.tdiv (2 ^ k) := by
  rw [truncDiv, Nat.cast_pow, Nat.cast_ofNat]

theorem shr_of_negative_amount {s : Word} (h : s.toInt < 0) (nd : NegDiv) (a : Word) :
    shr nd a s = .error .negativeShiftAmount := if_pos h

theorem shr_of_negative_dividend {a s : Word} (hs : 0 ≤ s.toInt) (ha : a.toInt < 0) :
    shr .fault a s = .error .negativeDividend := by
  rw [shr, if_neg hs.not_gt, if_neg ha.not_ge]

theorem shr_floor {nd : NegDiv} {a s : Word} (hs : 0 ≤ s.toInt) (hd : 0 ≤ a.toInt ∨ nd = .floor) :
    ∃ q, shr nd a s = .ok q ∧ q.toInt = a.toInt / 2 ^ s.toNat := by
  rw [← floorDiv_eq_ediv]
  rcases shr_spec nd a s with ⟨hneg, -⟩ | ⟨-, -, hq⟩ | ⟨-, hneg, rfl, -⟩ | ⟨-, hneg, rfl, -⟩
  · exact absurd hneg hs.not_gt
  · exact hq
  · exact absurd (hd.resolve_right nofun) hneg.not_ge
  · exact absurd (hd.resolve_right nofun) hneg.not_ge

theorem shr_trunc {a s : Word} (hs : 0 ≤ s.toInt) (ha : a.toInt < 0) :
    ∃ q, shr .trunc a s = .ok q ∧ q.toInt = a.toInt.tdiv (2 ^ s.toNat) := by
  rw [← truncDiv_eq_tdiv]
  rcases shr_spec .trunc a s with ⟨hneg, -⟩ | ⟨-, hd, -⟩ | ⟨-, -, -, hq⟩ | ⟨-, -, hnd, -⟩
  · exact absurd hneg hs.not_gt
  · exact absurd (hd.resolve_right nofun) ha.not_ge
  · exact hq
  · exact absurd hnd nofun

/-- Settles O9: the five clauses of 41_shift_divide R133, a dividend of at least 0 and one under FLOOR by the same
lemma. -/
theorem shrDividesByPowerOfTwo : Obligations.ShrDividesByPowerOfTwo := by
  refine fun nd a s => ⟨fun hs => shr_of_negative_amount hs nd a, fun hs ha => shr_floor hs (.inl ha),
    fun hs _ hnd => shr_floor hs (.inr hnd), ?_, ?_⟩
  · rintro hs ha rfl
    exact shr_trunc hs ha
  · rintro hs ha rfl
    exact shr_of_negative_dividend hs ha

/-- A result of `shr` is the floor quotient, or the truncated one of a negative dividend. -/
theorem shr_ok {nd : NegDiv} {a s q : Word} (h : shr nd a s = .ok q) :
    q.toInt = floorDiv a.toInt s.toNat ∨ (a.toInt < 0 ∧ q.toInt = -floorDiv (-a.toInt) s.toNat) := by
  rcases shr_spec nd a s with ⟨-, e⟩ | ⟨-, -, q', e, hq⟩ | ⟨-, ha, -, q', e, hq⟩ | ⟨-, -, -, e⟩ <;>
    cases e.symm.trans h
  · exact .inl hq
  · exact .inr ⟨ha, hq.trans (truncDiv_eq_neg_floorDiv _ _ ha)⟩

/-- A quotient of a dividend of at least 0 lies between 0 and the dividend. -/
theorem shr_range_of_nonneg {nd : NegDiv} {a s q : Word} (h : shr nd a s = .ok q) (ha : 0 ≤ a.toInt) :
    0 ≤ q.toInt ∧ q.toInt ≤ a.toInt := by
  rcases shr_ok h with hq | ⟨hneg, -⟩
  · exact hq ▸ floorDiv_range a.toInt s.toNat ha
  · exact absurd ha hneg.not_ge

/-- A quotient of a negative dividend lies between the dividend and 0. -/
theorem shr_range_of_neg {nd : NegDiv} {a s q : Word} (h : shr nd a s = .ok q) (ha : a.toInt < 0) :
    a.toInt ≤ q.toInt ∧ q.toInt ≤ 0 := by
  rcases shr_ok h with hq | ⟨-, hq⟩
  · have hrange := floorDiv_range_neg a.toInt s.toNat ha
    omega
  · have hrange := floorDiv_range (-a.toInt) s.toNat (by omega)
    omega

/-- Every 64-bit dividend of at least 0 is below 2^63, so an amount of 63 or more leaves nothing (decision D7). -/
theorem shr_eq_zero_of_large_amount {nd : NegDiv} {a s q : Word} (h : shr nd a s = .ok q) (ha : 0 ≤ a.toInt)
    (hs : 63 ≤ s.toNat) : q.toInt = 0 := by
  rcases shr_ok h with hq | ⟨hneg, -⟩
  · have hlt : a.toInt < 2 ^ 63 := BitVec.toInt_lt
    have hpow : (2 : Int) ^ 63 ≤ 2 ^ s.toNat := pow_le_pow_right₀ (by decide) hs
    rw [hq, floorDiv_eq_ediv, Int.ediv_eq_zero_of_lt ha (hlt.trans_le hpow)]
  · exact absurd ha hneg.not_ge

/-- Settles O10, by the range of the quotient on each sign of the dividend. -/
theorem shrStaysWithinDividend : Obligations.ShrStaysWithinDividend := by
  refine fun nd a s q h => ⟨?_, fun ha => (shr_range_of_nonneg h ha).1, fun ha => (shr_range_of_neg h ha).2,
    shr_eq_zero_of_large_amount h⟩
  rcases lt_or_ge a.toInt 0 with ha | ha
  · have hrange := shr_range_of_neg h ha
    omega
  · have hrange := shr_range_of_nonneg h ha
    omega

end Sys2Proof.Machine
end

section
/-! PROOFS. adv, bdv and cdv (41_shift_divide R130 to R134): where they complete and what they write, and where they
raise. -/

namespace Sys2Proof.Machine

/-- The three instructions divide A alike and differ in the destination only. -/
theorem shiftDivide_completes {src : Combo} {s : State} {amount : Word} (hc : comboValue src s = .ok amount)
    (hamount : 0 ≤ amount.toInt) (hd : 0 ≤ s.a.toInt ∨ s.params.negDiv ≠ .fault) :
    ∃ q : Word, (∀ dst, shiftDivide dst src s = .next (s.setReg dst q).advance) ∧
      q.toInt = if 0 ≤ s.a.toInt ∨ s.params.negDiv = .floor then s.a.toInt / 2 ^ amount.toNat
        else s.a.toInt.tdiv (2 ^ amount.toNat) := by
  have hwrites : ∀ {q}, shr s.params.negDiv s.a amount = .ok q →
      ∀ dst, shiftDivide dst src s = .next (s.setReg dst q).advance := by
    intro q hq dst
    simp only [shiftDivide, hc, hq]
  by_cases hfloor : 0 ≤ s.a.toInt ∨ s.params.negDiv = .floor
  · obtain ⟨q, hq, hval⟩ := shr_floor hamount hfloor
    exact ⟨q, hwrites hq, by rw [if_pos hfloor, hval]⟩
  · obtain ⟨hneg, hnd⟩ := not_or.mp hfloor
    have htrunc : s.params.negDiv = .trunc := by
      cases h : s.params.negDiv with
      | trunc => rfl
      | floor => exact absurd h hnd
      | fault => exact absurd h (hd.resolve_left hneg)
    obtain ⟨q, hq, hval⟩ := shr_trunc (a := s.a) hamount (not_le.mp hneg)
    exact ⟨q, hwrites (htrunc ▸ hq), by rw [if_neg hfloor, hval]⟩

/-- Either quotient by 2^0 is the dividend (90_conflicts C3). -/
theorem quotient_by_zero_amount {s : State} {amount q : Word}
    (hval : q.toInt = if 0 ≤ s.a.toInt ∨ s.params.negDiv = .floor then s.a.toInt / 2 ^ amount.toNat
      else s.a.toInt.tdiv (2 ^ amount.toNat)) (hzero : amount = 0#64) : q = s.a := by
  have hone : (2 : Int) ^ amount.toNat = 1 := by rw [hzero]; rfl
  rw [hone, Int.ediv_one, Int.tdiv_one, ite_self] at hval
  exact BitVec.toInt_inj.mp hval

/-- Settles O11: the shared quotient, written to A. -/
theorem advDividesAIntoA : Obligations.AdvDividesAIntoA := by
  intro src s amount hc hamount hd
  obtain ⟨q, hq, hval⟩ := shiftDivide_completes hc hamount hd
  exact ⟨q, hq .a, hval⟩

/-- Settles O12: the shared quotient, written to B. -/
theorem bdvDividesAIntoB : Obligations.BdvDividesAIntoB := by
  intro src s amount hc hamount hd
  obtain ⟨q, hq, hval⟩ := shiftDivide_completes hc hamount hd
  exact ⟨q, hq .b, hval, quotient_by_zero_amount hval⟩

/-- Settles O13: the shared quotient, written to C. -/
theorem cdvDividesAIntoC : Obligations.CdvDividesAIntoC := by
  intro src s amount hc hamount hd
  obtain ⟨q, hq, hval⟩ := shiftDivide_completes hc hamount hd
  exact ⟨q, hq .c, hval, quotient_by_zero_amount hval⟩

theorem exec_shift_eq_shiftDivide {i : Instr} {src : Combo} (h : i = .adv src ∨ i = .bdv src ∨ i = .cdv src)
    (s : State) : ∃ dst, exec i s = shiftDivide dst src s := by
  rcases h with rfl | rfl | rfl
  · exact ⟨.a, rfl⟩
  · exact ⟨.b, rfl⟩
  · exact ⟨.c, rfl⟩

theorem shiftDivide_of_shr_error {dst : Reg} {src : Combo} {s : State} {amount : Word} {f : Cause}
    (hc : comboValue src s = .ok amount) (h : shr s.params.negDiv s.a amount = .error f) :
    shiftDivide dst src s = .next (s.enterFault f) := by
  simp only [shiftDivide, hc, h, raise_eq]

/-- Settles O14: the operand is read first, and then the two checks of `shr` in their order. -/
theorem shiftInstructionsRaiseInOrder : Obligations.ShiftInstructionsRaiseInOrder := by
  intro src s i hi
  obtain ⟨dst, he⟩ := exec_shift_eq_shiftDivide hi s
  refine ⟨?reserved, fun amount hc hneg => ?amount, fun amount hc hamount ha hnd => ?dividend⟩
  case reserved =>
    rintro rfl
    exact he
  case amount => exact he.trans (shiftDivide_of_shr_error hc (shr_of_negative_amount hneg _ _))
  case dividend =>
    exact he.trans (shiftDivide_of_shr_error hc (by rw [hnd, shr_of_negative_dividend hamount ha]))

/-- A value of at least 0 is below 2 to its own power. -/
theorem toInt_ediv_two_pow_self {v : Word} (h : 0 ≤ v.toInt) : v.toInt / 2 ^ v.toNat = 0 := by
  have hval : v.toInt = (v.toNat : Int) := by
    rw [BitVec.toInt_eq_toNat_cond] at h ⊢
    split at h <;> omega
  refine Int.ediv_eq_zero_of_lt h ?_
  rw [hval]
  exact_mod_cast Nat.lt_two_pow_self

/-- Settles O15: the quotient of A by 2^A is 0, and a negative A is a negative amount. -/
theorem shiftByItselfGivesZero : Obligations.ShiftByItselfGivesZero := by
  refine fun s => ⟨fun ha => ?_, fun ha => ?_⟩
  · obtain ⟨q, hq, hval⟩ := shiftDivide_completes (src := .reg .a) rfl ha (.inl ha)
    obtain rfl : q = 0#64 := by
      rw [if_pos (.inl ha), State.reg_a, toInt_ediv_two_pow_self ha] at hval
      exact BitVec.toInt_inj.mp hval
    exact ⟨hq .a, hq .b⟩
  · exact shiftDivide_of_shr_error (src := .reg .a) rfl (shr_of_negative_amount ha _ _)

end Sys2Proof.Machine
end

section
/-! PROOFS. bst and out (42_bitwise R141, 43_control_output R151): the operand mod 8, and the capacity of the buffer. -/

namespace Sys2Proof.Machine

theorem literalValue_toInt (d : Digit) : (literalValue d).toInt = d.toNat := by
  rw [BitVec.toInt_eq_toNat_of_lt (by rw [literalValue_toNat]; omega), literalValue_toNat]

theorem exec_bst {src : Combo} {s : State} {v : Word} (hc : comboValue src s = .ok v) :
    exec (.bst src) s = .next (s.setReg .b (literalValue (mod8 v))).advance := by
  rw [exec, execBst, hc]
  rfl

/-- Settles O17: B takes the digit `mod8`, which is the remainder by 8. -/
theorem bstTakesMod8IntoB : Obligations.BstTakesMod8IntoB :=
  fun _ _ v hc => ⟨literalValue (mod8 v), exec_bst hc, by rw [literalValue_toInt, mod8_toNat_eq_emod]⟩

theorem outFull_iff (s : State) : s.outFull = true ↔ s.params.outCap = some s.out.length := beq_iff_eq

theorem exec_out_room {src : Combo} {s : State} {v : Word} (hc : comboValue src s = .ok v)
    (hroom : s.params.outCap ≠ some s.out.length) : exec (.out src) s = .next (s.outAppend (mod8 v)).advance := by
  simp only [exec, execOut, hc, if_neg (mt (outFull_iff s).mp hroom)]

theorem exec_out_full {src : Combo} {s : State} {v : Word} (hc : comboValue src s = .ok v)
    (hfull : s.params.outCap = some s.out.length) : exec (.out src) s = .next (s.enterFault .outputOverflow) := by
  simp only [exec, execOut, hc, if_pos ((outFull_iff s).mpr hfull), raise_eq]

/-- Settles O20: with room, the digit appended is `mod8` of the operand. -/
theorem outAppendsMod8 : Obligations.OutAppendsMod8 :=
  fun _ _ v hc hroom => ⟨mod8 v, exec_out_room hc hroom, mod8_toNat_eq_emod v⟩

theorem exists_comboValue {src : Combo} (h : src ≠ .reserved) (s : State) : ∃ v, comboValue src s = .ok v := by
  cases src with
  | lit w => exact ⟨_, rfl⟩
  | reg r => exact ⟨_, rfl⟩
  | reserved => exact absurd rfl h

/-- Settles O21: an operand that is not reserved has a value, and then the capacity decides. -/
theorem outRaisesWhenBufferFull : Obligations.OutRaisesWhenBufferFull := by
  intro src s hsrc hfull
  obtain ⟨v, hc⟩ := exists_comboValue hsrc s
  exact exec_out_full hc hfull

end Sys2Proof.Machine
end

section
/-! PROOFS. Every step keeps non-negative registers non-negative (10_state R23). -/

namespace Sys2Proof.Machine

/-- No register is negative. -/
def State.RegsNonneg (s : State) : Prop := ∀ r, 0 ≤ (s.reg r).toInt

theorem State.Nonneg.regsNonneg {s : State} (h : s.Nonneg) (hs : s.registersHeld = true) : s.RegsNonneg :=
  h.registers hs

/-- Registers unchanged, none becomes negative. -/
theorem State.RegsNonneg.congr {s t : State} (h : s.RegsNonneg) (ht : ∀ r, t.reg r = s.reg r) : t.RegsNonneg :=
  fun r => (ht r).symm ▸ h r

theorem State.RegsNonneg.setReg_advance {s : State} (h : s.RegsNonneg) (dst : Reg) {v : Word} (hv : 0 ≤ v.toInt) :
    (s.setReg dst v).advance.RegsNonneg := by
  intro r
  rw [State.reg_advance]
  by_cases hr : r = dst
  · rwa [hr, State.reg_setReg_same]
  · rw [State.reg_setReg_other s hr]
    exact h r

/-- Two signs that are alike cancel. -/
theorem xor_toInt_nonneg {x y : Word} (hx : 0 ≤ x.toInt) (hy : 0 ≤ y.toInt) : 0 ≤ (x ^^^ y).toInt := by
  rw [← not_lt, xor_toInt_neg_iff, not_not]
  exact iff_of_false hx.not_gt hy.not_gt

theorem shiftDivide_keeps_nonneg {dst : Reg} {src : Combo} {s t : State} (h : s.RegsNonneg)
    (he : shiftDivide dst src s = .next t) : t.RegsNonneg := by
  rcases shiftDivide_cases dst src s with ⟨_, q, -, hq, e⟩ | ⟨-, e⟩ | ⟨_, f, -, -, e⟩ <;> cases e.symm.trans he
  · exact h.setReg_advance dst (shr_range_of_nonneg hq (h .a)).1
  · exact h.congr (State.reg_enterFault s _)
  · exact h.congr (State.reg_enterFault s f)

theorem execBst_keeps_nonneg {src : Combo} {s t : State} (h : s.RegsNonneg) (he : execBst src s = .next t) :
    t.RegsNonneg := by
  rcases execBst_cases src s with ⟨v, -, e⟩ | ⟨-, e⟩ <;> cases e.symm.trans he
  · exact h.setReg_advance .b (literalValue_toInt_nonneg (mod8 v))
  · exact h.congr (State.reg_enterFault s _)

/-- jnz and out write no register (10_state R22). -/
theorem execJnz_reg {d : Digit} {s t : State} (h : execJnz d s = .next t) (r : Reg) : t.reg r = s.reg r := by
  rw [execJnz] at h
  split at h <;> cases h
  · exact State.reg_setIp s _ r
  · exact State.reg_advance s r

theorem execOut_reg {src : Combo} {s t : State} (h : execOut src s = .next t) (r : Reg) : t.reg r = s.reg r := by
  rcases execOut_cases src s with ⟨v, -, -, e⟩ | ⟨-, e⟩ | ⟨v, -, -, e⟩ <;> cases e.symm.trans h
  · rw [State.reg_advance, State.reg_outAppend]
  · exact State.reg_enterFault s _ r
  · exact State.reg_enterFault s _ r

/-- A shift brings a quotient of a dividend of at least 0, bst a digit, and bxl and bxc the exclusive or of values of
one sign. -/
theorem exec_keeps_nonneg {i : Instr} {s t : State} (h : s.RegsNonneg) (he : exec i s = .next t) : t.RegsNonneg := by
  cases i with
  | adv src => exact shiftDivide_keeps_nonneg h he
  | bdv src => exact shiftDivide_keeps_nonneg h he
  | cdv src => exact shiftDivide_keeps_nonneg h he
  | bst src => exact execBst_keeps_nonneg h he
  | bxl d =>
    cases he
    exact h.setReg_advance .b (xor_toInt_nonneg (h .b) (literalValue_toInt_nonneg d))
  | bxc _ =>
    cases he
    exact h.setReg_advance .b (xor_toInt_nonneg (h .b) (h .c))
  | jnz d => exact h.congr (execJnz_reg he)
  | out src => exact h.congr (execOut_reg he)

theorem executeOne_keeps_nonneg {s t : State} (h : s.RegsNonneg) (he : executeOne s = .next t) : t.RegsNonneg := by
  rcases executeOne_cases s with ⟨f, -, e⟩ | ⟨i, -, -, e⟩
  · cases e.symm.trans he
    exact h.congr (State.reg_enterFault s f)
  · exact exec_keeps_nonneg h (e.symm.trans he)

/-- A step leaves no command pending that was not pending before. -/
theorem StepEffect.commands_subset {s t : State} (h : StepEffect s t) : t.commands ⊆ s.commands := by
  rcases h.commands with ⟨-, hc⟩ | ⟨-, -, rfl⟩ | ⟨-, cmd, hc⟩
  · exact hc ▸ List.Subset.refl _
  · exact List.Subset.refl _
  · exact hc ▸ List.subset_cons_self _ _

/-- In the states in which an instruction runs the registers hold values, and a `Load` brings its own. -/
theorem StepEffect.registers_nonneg {s t : State} (hs : s.Consistent) (hn : s.Nonneg) (h : StepEffect s t)
    (ht : t.registersHeld = true) : t.RegsNonneg := by
  have running (hr : s.runState = .running) : s.RegsNonneg :=
    hn.regsNonneg (hs.registersHeld (by simp [hr]) (by simp [hr]))
  have idle (hi : s.isIdle) : s.RegsNonneg := hn.regsNonneg (hs.registersHeld hi.not_unloaded hi.not_faulted)
  cases h with
  | haltEnd hr | haltOutput hr => exact (running hr).congr (State.reg_setRunState s _)
  | turn _ hr _ _ he => exact executeOne_keeps_nonneg (running hr) he
  | idle => exact hn.regsNonneg ht
  | loaded p a b c rest _ hc =>
    obtain ⟨ha, hb, hcc⟩ := hn.pendingLoads p a b c (hc ▸ List.mem_cons_self)
    intro r
    cases r <;> assumption
  | failedLoad => exact absurd ht (by simp)
  | notLoaded => exact absurd ht (by simp [State.registersHeld])
  | sticky _ rest | observed _ rest => exact (hn.regsNonneg ht).congr (State.reg_setCommands s rest)
  | stepped u rest hi _ he =>
    have hu : u.RegsNonneg := executeOne_keeps_nonneg ((idle hi).congr (State.reg_setCommands s rest)) he
    split
    · exact hu
    · exact hu.congr (State.reg_setRunState u _)
  | runStarted hofo rest hi => exact (idle hi).congr fun r => by simp

/-- Settles O52: the registers by the effect of the step, the pending `Load`s because none is added. -/
theorem stepKeepsRegistersNonneg : Obligations.StepKeepsRegistersNonneg := by
  intro s t hs hn hstep
  have heffect : StepEffect s t := step_effect hstep
  exact ⟨heffect.registers_nonneg hs hn, fun p a b c hmem => hn.pendingLoads p a b c (heffect.commands_subset hmem)⟩

end Sys2Proof.Machine
end

section
/-! PROOFS. What an instruction writes (the write column of 10_state R22) and what it reads (its read column). -/

namespace Sys2Proof.Machine

/-- Settles O24: every instruction is a fault entry or a move. -/
theorem execAlwaysAnswersNext : Obligations.ExecAlwaysAnswersNext := by
  intro i s
  obtain ⟨t, he, -⟩ := exec_faultsOrMovesTo_nextIp i s
  exact ⟨t, he⟩

/-- The write column of the register table (10_state R22). -/
def writtenReg : Instr → Option Reg
  | .adv _ => some .a
  | .bxl _ | .bst _ | .bxc _ | .bdv _ => some .b
  | .cdv _ => some .c
  | .jnz _ | .out _ => none

theorem setReg_advance_reg_other {s : State} {r dst : Reg} (h : dst ≠ r) (v : Word) :
    (s.setReg dst v).advance.reg r = s.reg r := by
  rw [State.reg_advance, State.reg_setReg_other s h.symm]

theorem shiftDivide_reg_other {dst r : Reg} {src : Combo} {s t : State} (h : dst ≠ r)
    (he : shiftDivide dst src s = .next t) : t.reg r = s.reg r := by
  rcases shiftDivide_cases dst src s with ⟨_, q, -, -, e⟩ | ⟨-, e⟩ | ⟨_, f, -, -, e⟩ <;> cases e.symm.trans he
  · exact setReg_advance_reg_other h q
  · exact State.reg_enterFault s _ r
  · exact State.reg_enterFault s f r

theorem execBst_reg_other {r : Reg} {src : Combo} {s t : State} (h : .b ≠ r) (he : execBst src s = .next t) :
    t.reg r = s.reg r := by
  rcases execBst_cases src s with ⟨v, -, e⟩ | ⟨-, e⟩ <;> cases e.symm.trans he
  · exact setReg_advance_reg_other h _
  · exact State.reg_enterFault s _ r

/-- A register the write column does not give an instruction keeps its value. -/
theorem exec_reg_of_not_written {i : Instr} {r : Reg} {s t : State} (h : writtenReg i ≠ some r)
    (he : exec i s = .next t) : t.reg r = s.reg r := by
  cases i with
  | adv src | bdv src | cdv src => exact shiftDivide_reg_other (h ∘ congrArg some) he
  | bst src => exact execBst_reg_other (h ∘ congrArg some) he
  | bxl _ | bxc _ =>
    cases he
    exact setReg_advance_reg_other (h ∘ congrArg some) _
  | jnz d => exact execJnz_reg he r
  | out src => exact execOut_reg he r

theorem written_of_reg_ne {i : Instr} {r : Reg} {s t : State} (he : exec i s = .next t) (h : t.reg r ≠ s.reg r) :
    writtenReg i = some r := not_not.mp fun hw => h (exec_reg_of_not_written hw he)

theorem writtenReg_eq_a {i : Instr} (h : writtenReg i = some .a) : ∃ src, i = .adv src := by
  cases i with
  | adv src => exact ⟨src, rfl⟩
  | _ => cases h

theorem writtenReg_eq_b {i : Instr} (h : writtenReg i = some .b) :
    (∃ d, i = .bxl d ∨ i = .bxc d) ∨ ∃ src, i = .bst src ∨ i = .bdv src := by
  cases i with
  | bxl d => exact .inl ⟨d, .inl rfl⟩
  | bxc d => exact .inl ⟨d, .inr rfl⟩
  | bst src => exact .inr ⟨src, .inl rfl⟩
  | bdv src => exact .inr ⟨src, .inr rfl⟩
  | _ => cases h

theorem writtenReg_eq_c {i : Instr} (h : writtenReg i = some .c) : ∃ src, i = .cdv src := by
  cases i with
  | cdv src => exact ⟨src, rfl⟩
  | _ => cases h

theorem shiftDivide_out {dst : Reg} {src : Combo} {s t : State} (he : shiftDivide dst src s = .next t) :
    t.out = s.out := by
  rcases shiftDivide_cases dst src s with ⟨_, q, -, -, e⟩ | ⟨-, e⟩ | ⟨_, f, -, -, e⟩ <;> cases e.symm.trans he
  · rw [State.advance_out, State.setReg_out]
  · rfl
  · rfl

/-- The buffer changes only under `out`, and then by one digit (10_state R30). -/
theorem exec_out_ne {i : Instr} {s t : State} (he : exec i s = .next t) (h : t.out ≠ s.out) :
    ∃ src d, i = .out src ∧ t.out = s.out ++ [d] := by
  cases i with
  | adv src | bdv src | cdv src => exact absurd (shiftDivide_out he) h
  | bxl _ | bxc _ =>
    cases he
    exact absurd rfl h
  | bst src =>
    rcases execBst_cases src s with ⟨v, -, e⟩ | ⟨-, e⟩ <;> cases e.symm.trans he <;> exact absurd rfl h
  | jnz d =>
    rw [exec, execJnz] at he
    split at he <;> cases he <;> exact absurd rfl h
  | out src =>
    rcases execOut_cases src s with ⟨v, -, -, e⟩ | ⟨-, e⟩ | ⟨v, -, -, e⟩ <;> cases e.symm.trans he
    · exact ⟨src, mod8 v, rfl, rfl⟩
    · exact absurd rfl h
    · exact absurd rfl h

/-- Settles O25: the write column, the buffer, and the frame every instruction keeps. -/
theorem onlyNamedInstructionsWrite : Obligations.OnlyNamedInstructionsWrite := by
  intro i s t he
  refine ⟨fun h => writtenReg_eq_a (written_of_reg_ne (r := .a) he h),
    fun h => writtenReg_eq_b (written_of_reg_ne (r := .b) he h),
    fun h => writtenReg_eq_c (written_of_reg_ne (r := .c) he h), exec_out_ne he, ?_⟩
  rcases (exec_effect he).completes_or_faults with ⟨f, -, rfl⟩ | hc
  · exact ⟨rfl, rfl, rfl, rfl, rfl, .inr rfl⟩
  · exact ⟨hc.prog, hc.hofo, hc.params, hc.commands, hc.freeDraws, .inl ⟨hc.runState, hc.cause⟩⟩

/-- One thing an instruction does, with the values it has computed: a fault, a register written, an index to go on at,
or a digit appended. -/
inductive Update where
  | fault (f : Cause)
  | write (dst : Reg) (v : Word)
  | goOn (n : Nat)
  | emit (d : Digit)

/-- The state after the update. -/
def Update.apply : Update → State → State
  | .fault f, s => s.enterFault f
  | .write dst v, s => (s.setReg dst v).advance
  | .goOn n, s => s.setIp n
  | .emit d, s => (s.outAppend d).advance

/-- Both outcomes come from one and the same update: what was computed does not tell the two states apart. -/
def SameUpdate (s s' : State) (o o' : Host.Outcome State Fault Refusal) : Prop :=
  ∃ u : Update, o = .next (u.apply s) ∧ o' = .next (u.apply s')

/-- An update carries another value in `r` through to `r` alone, unless it overwrites it. -/
theorem Update.apply_setReg (u : Update) (s : State) (r : Reg) (v : Word) :
    (u.apply (s.setReg r v)).ip = (u.apply s).ip ∧ (u.apply (s.setReg r v)).out = (u.apply s).out ∧
    (u.apply (s.setReg r v)).runState = (u.apply s).runState ∧ (u.apply (s.setReg r v)).cause = (u.apply s).cause ∧
    (∀ q, q ≠ r → (u.apply (s.setReg r v)).reg q = (u.apply s).reg q) ∧
    ((u.apply (s.setReg r v)).reg r = (u.apply s).reg r ∨
      ((u.apply (s.setReg r v)).reg r = v ∧ (u.apply s).reg r = s.reg r)) := by
  cases u with
  | write dst w =>
    refine ⟨by simp [apply], by simp [apply], by simp [apply], by simp [apply], fun q hq => ?_, ?_⟩
    · by_cases hd : q = dst
      · simp [apply, hd]
      · simp [apply, State.reg_setReg_other, hd, hq]
    · by_cases hd : r = dst
      · exact .inl (by simp [apply, hd])
      · exact .inr (by simp [apply, State.reg_setReg_other, hd])
  | fault f => simp +contextual [apply, State.reg_setReg_other]
  | goOn n => simp +contextual [apply, State.reg_setReg_other]
  | emit d => simp +contextual [apply, State.reg_setReg_other]

theorem comboValue_setReg_other {src : Combo} {r : Reg} (h : src ≠ .reg r) (s : State) (v : Word) :
    comboValue src (s.setReg r v) = comboValue src s := by
  cases src with
  | reg q => exact congrArg Except.ok (State.reg_setReg_other s (fun hq => h (congrArg _ hq)) v)
  | lit _ => rfl
  | reserved => rfl

theorem setReg_a_other {r : Reg} (h : r ≠ .a) (s : State) (v : Word) : (s.setReg r v).a = s.a :=
  State.reg_setReg_other s h.symm v

theorem setReg_b_other {r : Reg} (h : r ≠ .b) (s : State) (v : Word) : (s.setReg r v).b = s.b :=
  State.reg_setReg_other s h.symm v

theorem setReg_c_other {r : Reg} (h : r ≠ .c) (s : State) (v : Word) : (s.setReg r v).c = s.c :=
  State.reg_setReg_other s h.symm v

theorem shiftDivide_sameUpdate {dst r : Reg} {src : Combo} (ha : r ≠ .a) (hsrc : src ≠ .reg r) (s : State) (v : Word) :
    SameUpdate s (s.setReg r v) (shiftDivide dst src s) (shiftDivide dst src (s.setReg r v)) := by
  simp only [shiftDivide, comboValue_setReg_other hsrc, setReg_a_other ha, State.setReg_params]
  cases comboValue src s with
  | error f => exact ⟨.fault f, rfl, rfl⟩
  | ok amount =>
    dsimp only
    cases shr s.params.negDiv s.a amount with
    | error f => exact ⟨.fault f, rfl, rfl⟩
    | ok q => exact ⟨.write dst q, rfl, rfl⟩

theorem execBst_sameUpdate {r : Reg} {src : Combo} (hsrc : src ≠ .reg r) (s : State) (v : Word) :
    SameUpdate s (s.setReg r v) (execBst src s) (execBst src (s.setReg r v)) := by
  simp only [execBst, comboValue_setReg_other hsrc]
  cases comboValue src s with
  | error f => exact ⟨.fault f, rfl, rfl⟩
  | ok w => exact ⟨.write .b (literalValue (mod8 w)), rfl, rfl⟩

theorem outFull_setReg (s : State) (r : Reg) (v : Word) : (s.setReg r v).outFull = s.outFull := by
  simp [State.outFull]

theorem execOut_sameUpdate {r : Reg} {src : Combo} (hsrc : src ≠ .reg r) (s : State) (v : Word) :
    SameUpdate s (s.setReg r v) (execOut src s) (execOut src (s.setReg r v)) := by
  simp only [execOut, comboValue_setReg_other hsrc, outFull_setReg]
  cases comboValue src s with
  | error f => exact ⟨.fault f, rfl, rfl⟩
  | ok w =>
    cases s.outFull with
    | true => exact ⟨.fault .outputOverflow, rfl, rfl⟩
    | false => exact ⟨.emit (mod8 w), rfl, rfl⟩

theorem execJnz_sameUpdate {r : Reg} (ha : r ≠ .a) (d : Digit) (s : State) (v : Word) :
    SameUpdate s (s.setReg r v) (execJnz d s) (execJnz d (s.setReg r v)) := by
  simp only [execJnz, setReg_a_other ha]
  split
  · exact ⟨.goOn (literalValue d).toNat, rfl, rfl⟩
  · exact ⟨.goOn (s.ip + 2), rfl, by rw [State.advance, State.setReg_ip]; rfl⟩

theorem execBxl_sameUpdate {r : Reg} (hb : r ≠ .b) (d : Digit) (s : State) (v : Word) :
    SameUpdate s (s.setReg r v) (execBxl d s) (execBxl d (s.setReg r v)) :=
  ⟨.write .b (s.b ^^^ literalValue d), rfl, by rw [execBxl, setReg_b_other hb]; rfl⟩

theorem execBxc_sameUpdate {r : Reg} (hb : r ≠ .b) (hc : r ≠ .c) (d : Digit) (s : State) (v : Word) :
    SameUpdate s (s.setReg r v) (execBxc d s) (execBxc d (s.setReg r v)) :=
  ⟨.write .b (s.b ^^^ s.c), rfl, by rw [execBxc, setReg_b_other hb, setReg_c_other hc]; rfl⟩

/-- Settles O54: an instruction that reads `r` neither by its opcode nor by its operand computes the same update
whatever `r` holds. -/
theorem onlyNamedRegistersAreRead : Obligations.OnlyNamedRegistersAreRead := by
  intro i r v s t hA hB hC ⟨hadv, hbst, hout, hbdv, hcdv⟩ he
  have hsame : SameUpdate s (s.setReg r v) (exec i s) (exec i (s.setReg r v)) := by
    cases i with
    | adv src => exact shiftDivide_sameUpdate (fun h => by simpa using hA h src 0#3) (hadv ∘ congrArg _) s v
    | bdv src => exact shiftDivide_sameUpdate (fun h => by simpa using hA h src 0#3) (hbdv ∘ congrArg _) s v
    | cdv src => exact shiftDivide_sameUpdate (fun h => by simpa using hA h src 0#3) (hcdv ∘ congrArg _) s v
    | bst src => exact execBst_sameUpdate (hbst ∘ congrArg _) s v
    | out src => exact execOut_sameUpdate (hout ∘ congrArg _) s v
    | jnz d => exact execJnz_sameUpdate (fun h => by simpa using hA h .reserved d) d s v
    | bxl d => exact execBxl_sameUpdate (fun h => by simpa using hB h d) d s v
    | bxc d => exact execBxc_sameUpdate (fun h => by simpa using hB h d) (fun h => hC h d rfl) d s v
  obtain ⟨u, hs, hs'⟩ := hsame
  cases hs.symm.trans he
  exact ⟨_, hs', u.apply_setReg s r v⟩

end Sys2Proof.Machine
end

section
/-! PROOFS. Fetch and decode with their faults in order (40_execution_cycle R100 and R102, 60_exceptions R166), and
`Step` as `execute_one`. -/

namespace Sys2Proof.Machine

theorem oddIpFaults_of_fault {s : State} (hp : s.params.oddIp = .fault) (ho : s.ip % 2 = 1) :
    s.oddIpFaults = true := by
  simp [State.oddIpFaults, hp, ho]

theorem oddIpFaults_eq_false {s : State} (h : s.params.oddIp = .execute ∨ s.ip % 2 = 0) : s.oddIpFaults = false := by
  rcases h with h | h <;> simp [State.oddIpFaults, h]

theorem fetch_oddIp {s : State} (hb : s.ip < s.prog.length) (ho : s.oddIpFaults = true) :
    fetch s = .error .oddIp := by
  have hop : s.memRead s.ip = some s.prog[s.ip] := List.getElem?_eq_getElem hb
  simp only [fetch, hop, if_pos ho]

theorem fetch_noOperand {s : State} (hb : s.ip + 1 = s.prog.length) (ho : s.oddIpFaults = false) :
    fetch s = .error .operandFetchOutOfBounds := by
  have hop : s.memRead s.ip = some s.prog[s.ip] := List.getElem?_eq_getElem (by omega)
  have hd : s.memRead (s.ip + 1) = none := List.getElem?_eq_none hb.ge
  simp [fetch, hop, hd, ho]

theorem fetch_eq_ok {s : State} {op d : Int} (hop : s.prog[s.ip]? = some op) (hd : s.prog[s.ip + 1]? = some d)
    (ho : s.oddIpFaults = false) : fetch s = .ok (op, d) := by
  simp [fetch, State.memRead, hop, hd, ho]

theorem fetchDecode_of_fetch_error {s : State} {f : Cause} (h : fetch s = .error f) : fetchDecode s = .error f := by
  rw [fetchDecode, h]

theorem fetchDecode_of_decode_error {s : State} {op d : Int} {e : DecodeError} (hf : fetch s = .ok (op, d))
    (hd : decode op d = .error e) : fetchDecode s = .error (Cause.ofDecodeError e) := by
  simp only [fetchDecode, hf, hd]

theorem fetchDecode_of_decode_ok {s : State} {op d : Int} {i : Instr} (hf : fetch s = .ok (op, d))
    (hd : decode op d = .ok i) : fetchDecode s = .ok i := by
  simp only [fetchDecode, hf, hd]

/-- Settles O28: each check that fails is the fault of `execute_one`, once the checks before it have passed. -/
theorem fetchAndDecodeFaultInOrder : Obligations.FetchAndDecodeFaultInOrder := by
  intro s
  refine ⟨executeOne_outOfBounds, fun hb hp ho => ?odd, fun hb ho => ?operand, fun op d hop hd ho => ?digits⟩
  case odd =>
    exact executeOne_of_fetchDecode_error (fetchDecode_of_fetch_error (fetch_oddIp hb (oddIpFaults_of_fault hp ho)))
  case operand =>
    exact executeOne_of_fetchDecode_error
      (fetchDecode_of_fetch_error (fetch_noOperand hb (oddIpFaults_eq_false ho)))
  case digits =>
    have hf : fetch s = .ok (op, d) := fetch_eq_ok hop hd (oddIpFaults_eq_false ho)
    refine ⟨fun hbad => ?_, fun hgood hbad => ?_, fun i hi => ?_⟩
    · exact executeOne_of_fetchDecode_error (fetchDecode_of_decode_error hf (decode_eq_invalidOpcodeDigit hbad d))
    · exact executeOne_of_fetchDecode_error
        (fetchDecode_of_decode_error hf (decode_eq_invalidOperandDigit hgood hbad))
    · exact executeOne_of_fetchDecode_ok (fetchDecode_of_decode_ok hf hi)

theorem State.isIdle.not_running {s : State} (h : s.isIdle) : s.runState ≠ .running := by
  rcases h with h | h | h <;> simp [h]

theorem settleStep_of_next (u : State) :
    settleStep (.next u) = .next (if u.runState = .faulted then u else u.setRunState .ready) := by
  rw [settleStep]
  split <;> rfl

/-- A pending `Step` in an idle state (40_execution_cycle R111). -/
theorem step_pendingStep {s : State} {rest : List Command} (hi : s.isIdle) (hc : s.commands = .step :: rest) :
    step s = settleStep (executeOne (s.setCommands rest)) := by
  rw [step_eq_issue hi.not_running hc]
  simp [issue, commandStep, hi.not_running, hi.not_unloaded, hi.not_faulted]

theorem step_pendingStep_next {s u : State} {rest : List Command} (hi : s.isIdle) (hc : s.commands = .step :: rest)
    (he : executeOne (s.setCommands rest) = .next u) :
    step s = .next (if u.runState = .faulted then u else u.setRunState .ready) := by
  rw [step_pendingStep hi hc, he, settleStep_of_next]

/-- Settles O27: a pending `Step` is `execute_one` with its STATE settled; `execute_one` is the instruction that the
digits at ip decode to. -/
theorem stepRunsDecodedInstruction : Obligations.StepRunsDecodedInstruction := by
  refine ⟨fun s u rest hi hc he => step_pendingStep_next hi hc he, fun s rest hi hc hb => ?beyond,
    fun s op d i hop hd hdec ho => ?decoded⟩
  case beyond =>
    have he : executeOne (s.setCommands rest) = .next ((s.setCommands rest).enterFault .fetchOutOfBounds) :=
      executeOne_outOfBounds hb
    exact step_pendingStep_next hi hc he
  case decoded =>
    have hf : fetchDecode s = .ok i := fetchDecode_of_decode_ok (fetch_eq_ok hop hd (oddIpFaults_eq_false ho)) hdec
    refine ⟨fun hr hh => ?_, fun rest t hi hc he => ?_⟩
    · rw [step_running_eq_executeOne hr (ip_lt_of_fetchDecode_ok hf) hh, executeOne_of_fetchDecode_ok hf]
    · have hf' : fetchDecode (s.setCommands rest) = .ok i := hf
      exact step_pendingStep_next hi hc ((executeOne_of_fetchDecode_ok hf').trans he)

end Sys2Proof.Machine
end

section
/-! PROOFS. The host's commands (40_execution_cycle R110 to R113 and R121): `Load`, `Step` and `Run` before any `Load`,
in FAULTED and in an idle state. -/

namespace Sys2Proof.Machine

theorem lenMax_eq_false {params : Params} {p : List Int} {bound : Nat} (hm : params.progMax = some bound)
    (h : bound < p.length) : Program.lenMax params p = false := by
  simp [Program.lenMax, withinBound, hm, h]

/-- Settles O33: the length is tested first, whatever the evenness. -/
theorem longLoadIsRefused : Obligations.LongLoadIsRefused := by
  intro s p a b c rest bound hr hc hm hlong
  rw [step_eq_issue hr hc, issue_load (s := s.setCommands rest) hr]
  simp [commandLoad, lenMax_eq_false hm hlong]

theorem step_oddLoad {s : State} {p : List Int} {a b c : Word} {rest : List Command} (hr : s.runState ≠ .running)
    (hc : s.commands = .load p a b c :: rest) (hm : Program.lenMax s.params p = true) (ho : p.length % 2 = 1) :
    step s = .next (s.setCommands rest).failedLoad := by
  rw [step_eq_issue hr hc, issue_load (s := s.setCommands rest) hr]
  simp [commandLoad, Program.evenLength, hm, ho]

theorem hostRead_of_not_held {field : HostField} {s : State} (h : fieldHeld field s = false) :
    hostRead field s = none := by
  simp [hostRead, h]

/-- After a failed `Load` STATUS alone can be read (60_exceptions R164). -/
theorem fieldHeld_of_failedLoad {s : State} (hc : s.cause = .invalidProgramLength) {field : HostField}
    (h : field ≠ .status) : fieldHeld field s = false := by
  cases field with
  | status => exact absurd rfl h
  | reg _ | ip => simp [fieldHeld, State.registersHeld, hc]
  | progLen | prog _ | outLen | out _ => simp [fieldHeld, State.buffersHeld, hc]

/-- Settles O32: the pending `Load` leaves `State.failedLoad`, in which no field but STATUS holds a value. -/
theorem oddLoadLeavesNoValue : Obligations.OddLoadLeavesNoValue := by
  intro s p a b c rest hr hc ho hm
  exact ⟨_, step_oddLoad hr hc hm ho, rfl, rfl, rfl, rfl, rfl,
    fun _ hfield => hostRead_of_not_held (fieldHeld_of_failedLoad rfl hfield)⟩

theorem issue_unloaded {s : State} {cmd : Command} (hu : s.runState = .unloaded)
    (hk : cmd = .step ∨ ∃ h, cmd = .run h) : issue cmd s = .next (s.enterFault .notLoaded) := by
  rcases hk with rfl | ⟨h, rfl⟩ <;> simp [issue, commandStep, commandRun, hu, raise_eq]

theorem issue_faulted {s : State} {cmd : Command} (hf : s.runState = .faulted)
    (hk : cmd = .step ∨ ∃ h, cmd = .run h) : issue cmd s = .next s := by
  rcases hk with rfl | ⟨h, rfl⟩ <;> simp [issue, commandStep, commandRun, hf]

/-- Settles O34: the fault entry of `Step` and `Run` in UNLOADED. -/
theorem commandsBeforeLoadRaise : Obligations.CommandsBeforeLoadRaise := by
  intro s cmd rest hu hc hk
  rw [step_eq_issue (by simp [hu]) hc]
  exact issue_unloaded (s := s.setCommands rest) hu hk

theorem issue_run {s : State} (hi : s.isIdle) (h : Bool) :
    issue (.run h) s = .next ((s.setHofo h).setRunState .running) := by
  simp [issue, commandRun, hi.not_running, hi.not_unloaded, hi.not_faulted]

/-- Settles O35: in an idle state `Run(h)` neither raises nor is inert. -/
theorem runCommandStartsLoop : Obligations.RunCommandStartsLoop := by
  intro s h rest hi hc
  have hidle : s.isIdle := hi
  rw [step_eq_issue hidle.not_running hc]
  exact issue_run (s := s.setCommands rest) hidle h

/-- Of the effects of a step, a `Load` of even length alone leaves FAULTED. -/
theorem StepEffect.loaded_of_leaves_faulted {s t : State} (h : StepEffect s t) (hf : s.runState = .faulted)
    (ht : t.runState ≠ .faulted) :
    ∃ p a b c, s.commands = .load p a b c :: t.commands ∧ p.length % 2 = 0 ∧ t.IsLaunch p a b c := by
  cases h with
  | loaded p a b c rest _ hc _ he => exact ⟨p, a, b, c, hc, (evenLength_iff p).mp he, loaded_isLaunch _ p a b c⟩
  | idle | sticky | observed => exact absurd hf ht
  | failedLoad | notLoaded => exact absurd rfl ht
  | haltEnd hr | haltOutput hr | turn _ hr => exact absurd (hf.symm.trans hr) nofun
  | stepped _ _ hi | runStarted _ _ hi => exact absurd hf hi.not_faulted

/-- Settles O30: `Step` and `Run` are inert in FAULTED, and of all the effects of a step a successful `Load` alone
leaves it. -/
theorem faultedLeftOnlyByLoad : Obligations.FaultedLeftOnlyByLoad := by
  refine fun s hf => ⟨fun cmd rest hc hk => ?_, fun t hstep ht => (step_effect hstep).loaded_of_leaves_faulted hf ht⟩
  rw [step_eq_issue (by simp [hf]) hc]
  exact issue_faulted (s := s.setCommands rest) hf hk

/-- `execute_one` that ends in FAULTED has entered a fault, and changed nothing else. -/
theorem executeOne_faulted {s t : State} (hs : s.runState ≠ .faulted) (he : executeOne s = .next t)
    (ht : t.runState = .faulted) : ∃ f, f ≠ .none ∧ t = s.enterFault f := by
  rcases executeOne_completes_or_faults he with ⟨f, hf, rfl⟩ | ⟨-, hc⟩
  · exact ⟨f, (stepFault_ne hf).1, rfl⟩
  · exact absurd (hc.runState.symm.trans ht) hs

/-- A step into FAULTED that is no failed `Load` is a fault entry, after the command that raised it is taken. -/
theorem StepEffect.enterFault_of_faulted {s t : State} (h : StepEffect s t) (hs : s.runState ≠ .faulted)
    (ht : t.runState = .faulted) (hc : t.cause ≠ .invalidProgramLength) :
    ∃ f cs, f ≠ .none ∧ t = (s.setCommands cs).enterFault f := by
  cases h with
  | turn _ hr _ _ he =>
    obtain ⟨f, hf, rfl⟩ := executeOne_faulted hs he ht
    exact ⟨f, s.commands, hf, rfl⟩
  | stepped u rest hi _ he =>
    have hu : u.runState = .faulted := by
      by_contra hne
      rw [if_neg hne] at ht
      cases ht
    obtain ⟨f, hf, rfl⟩ := executeOne_faulted (s := s.setCommands rest) hs he hu
    exact ⟨f, rest, hf, if_pos rfl⟩
  | notLoaded _ rest => exact ⟨.notLoaded, rest, nofun, rfl⟩
  | failedLoad => exact absurd rfl hc
  | idle | sticky | observed => exact absurd ht hs
  | haltEnd | haltOutput | loaded | runStarted => cases ht

/-- Settles O29: such a step is a fault entry; what it takes from the host's list is what every step takes. -/
theorem faultsArePrecise : Obligations.FaultsArePrecise := by
  intro s t hs hstep ht hc
  have heffect : StepEffect s t := step_effect hstep
  obtain ⟨f, cs, hf, hentry⟩ := heffect.enterFault_of_faulted hs ht hc
  refine ⟨by rw [hentry]; rfl, by rwa [hentry], ?_⟩
  rcases heffect.commands with ⟨hr, hkept⟩ | ⟨-, -, rfl⟩ | ⟨hr, htaken⟩
  · exact ⟨fun _ => hkept, absurd hr⟩
  · exact absurd ht hs
  · exact ⟨fun hrun => absurd hrun hr, fun _ => htaken⟩

/-- Settles O43: `issue` refuses in RUNNING, and a turn takes no command. -/
theorem hostHasNoMoveWhileRunning : Obligations.HostHasNoMoveWhileRunning := by
  refine fun s hr => ⟨fun _ => if_pos hr, fun t hstep => ?_⟩
  rcases (step_effect hstep).commands with ⟨-, hkept⟩ | ⟨hne, -⟩ | ⟨hne, -⟩
  · exact hkept
  · exact absurd hr hne
  · exact absurd hr hne

end Sys2Proof.Machine
end

section
/-! PROOFS. Host reads (10_state R36 and R39): the fields that hold a value, and the reads that stop. -/

namespace Sys2Proof.Machine

/-- No field a host can read depends on the commands still to come. -/
theorem hostRead_setCommands (field : HostField) (s : State) (cs : List Command) :
    hostRead field (s.setCommands cs) = hostRead field s := by cases field <;> rfl

theorem commandRead_of_hostRead {field : HostField} {s : State} {v : HostValue} (h : hostRead field s = some v) :
    commandRead field s = .next s := by
  rcases commandRead_cases field s with ⟨-, -, e⟩ | ⟨hheld, hnone, -⟩ | ⟨hheld, -⟩
  · exact e
  · simp [hostRead, hheld, hnone] at h
  · simp [hostRead, hheld] at h

theorem issue_read {s : State} (hr : s.runState ≠ .running) (field : HostField) :
    issue (.read field) s = commandRead field s := if_neg hr

theorem hostRead_of_held {field : HostField} {s : State} (h : fieldHeld field s = true) :
    hostRead field s = fieldValue field s := if_pos h

theorem buffersHeld_of_registersHeld {s : State} (h : s.registersHeld = true) : s.buffersHeld = true := by
  obtain ⟨-, hcause, -⟩ := (registersHeld_iff s).mp h
  simpa [State.buffersHeld] using hcause

/-- Settles O41: a read that has an answer takes its command only; with registers and buffers held, each field reads
as `fieldValue` gives it. -/
theorem hostReadsHaveNoEffect : Obligations.HostReadsHaveNoEffect := by
  refine ⟨fun s field v rest hr hv hc => ?_, fun s hheld => ?_⟩
  · rw [step_eq_issue hr hc, issue_read (s := s.setCommands rest) hr]
    exact commandRead_of_hostRead ((hostRead_setCommands field s rest).trans hv)
  · have hbuffers : s.buffersHeld = true := buffersHeld_of_registersHeld hheld
    refine ⟨fun _ => hostRead_of_held hheld, hostRead_of_held hheld, hostRead_of_held hbuffers,
      hostRead_of_held hbuffers, hostRead_of_held rfl, fun k hk => ?_, fun k hk => ?_⟩
    · rw [hostRead_of_held (field := .prog k) hbuffers, fieldValue, State.memRead,
        List.getElem?_eq_getElem hk, Option.map_some]
    · rw [hostRead_of_held (field := .out k) hbuffers, fieldValue, List.getElem?_eq_getElem hk, Option.map_some]

theorem registersHeld_eq_false_iff (s : State) :
    s.registersHeld = false ↔ s.runState = .unloaded ∨ s.cause = .invalidProgramLength ∨ s.cause = .notLoaded := by
  rw [← Bool.not_eq_true, registersHeld_iff]
  tauto

theorem issue_matchesProgram_noValue {s : State} (hr : s.runState ≠ .running) (hv : s.registersHeld = false) :
    issue .matchesProgram s = .fault .noValue := by
  simp [issue, commandMatchesProgram, hr, hv]

theorem issue_read_noValue {s : State} {field : HostField} (hr : s.runState ≠ .running)
    (h : fieldHeld field s = false) : issue (.read field) s = .fault .noValue := by
  rw [issue_read hr, commandRead, if_neg (by simp [h])]

theorem issue_read_noSuchDigit {s : State} {field : HostField} (hr : s.runState ≠ .running)
    (h : fieldHeld field s = true) (hv : fieldValue field s = none) :
    issue (.read field) s = .fault .noSuchDigit := by
  rw [issue_read hr, commandRead, if_pos h, hv]

/-- Settles O42: which states hold no register values, and the stop of each read there. -/
theorem noValueBeforeLoad : Obligations.NoValueBeforeLoad := by
  refine fun s => ⟨registersHeld_eq_false_iff s, fun cmd rest hr hc => ?_⟩
  rw [step_eq_issue hr hc]
  refine ⟨?registers, ?failed⟩
  case registers =>
    rintro hheld (rfl | rfl | ⟨r, rfl⟩)
    · exact issue_matchesProgram_noValue (s := s.setCommands rest) hr hheld
    · exact issue_read_noValue (s := s.setCommands rest) (field := .ip) hr hheld
    · exact issue_read_noValue (s := s.setCommands rest) (field := .reg r) hr hheld
  case failed =>
    rintro hcause field hfield rfl
    exact issue_read_noValue (s := s.setCommands rest) hr (fieldHeld_of_failedLoad hcause hfield)

/-- Settles O55: in a sequence that holds a value, an index at or above the length has no element. -/
theorem readBeyondTheEndStops : Obligations.ReadBeyondTheEndStops := by
  refine fun s k rest hr hheld => ⟨fun hc hk => ?_, fun hc hk => ?_⟩ <;> rw [step_eq_issue hr hc]
  · have hnone : s.prog[k]? = none := List.getElem?_eq_none hk
    exact issue_read_noSuchDigit (s := s.setCommands rest) hr hheld (congrArg (Option.map HostValue.element) hnone)
  · have hnone : s.out[k]? = none := List.getElem?_eq_none hk
    exact issue_read_noSuchDigit (s := s.setCommands rest) hr hheld (congrArg (Option.map HostValue.digit) hnone)

/-- Settles O50: the fields of `State.reset`, none of them a register or ip that can be read, and a step with no
command. -/
theorem powerOnState : Obligations.PowerOnState :=
  ⟨rfl, rfl, rfl, rfl, rfl, rfl, fun _ => hostRead_of_not_held reset_registersHeld,
    hostRead_of_not_held reset_registersHeld, rfl⟩

end Sys2Proof.Machine
end

section
/-! PROOFS. The turns of a `Run` (40_execution_cycle R104 and R112) and the transitions of the run-state machine
(40_execution_cycle R120). -/

namespace Sys2Proof.Machine

/-- The second halt test of a turn: it stops before any instruction and changes STATE only. -/
theorem step_running_haltOutput {s : State} (hr : s.runState = .running) (hb : s.ip < s.prog.length)
    (hh : s.hofo = true) (ho : s.out ≠ []) : step s = .next (s.setRunState .haltedOutput) := by
  rw [step_running hr]
  rcases runTurn_cases s with ⟨hout, -⟩ | ⟨-, -, -, e⟩ | ⟨-, hclear | hempty, -⟩
  · exact absurd hb hout.not_gt
  · exact e
  · exact absurd (hh.symm.trans hclear) nofun
  · exact absurd hempty ho

/-- Settles O37: within bounds the second halt test decides. -/
theorem runStopsOnOutput : Obligations.RunStopsOnOutput :=
  fun _ hr hb => ⟨step_running_haltOutput hr hb, step_running_eq_executeOne hr hb⟩

/-- Settles O38: a turn that runs an instruction begins with an empty buffer, for HOFO is 1; it appends at most one
digit and stays in RUNNING or faults. -/
theorem firstOutputRunHoldsOneDigit : Obligations.FirstOutputRunHoldsOneDigit := by
  intro s t hr hh hlen hstep
  rw [step_running hr] at hstep
  rcases runTurn_cases s with ⟨-, e⟩ | ⟨-, -, hne, e⟩ | ⟨-, hstop, e⟩ <;> rw [e] at hstep
  · cases hstep
    exact ⟨hh, hlen, nofun⟩
  · cases hstep
    exact ⟨hh, hlen, fun _ => le_antisymm hlen (List.length_pos_of_ne_nil hne)⟩
  · have hempty : s.out = [] := hstop.resolve_left (by simp [hh])
    obtain ⟨-, hhofo, -, -⟩ := executeOne_frame hstep
    refine ⟨hhofo.trans hh, ?_, fun ht => ?_⟩
    · rcases executeOne_out hstep with hout | ⟨d, hout⟩ <;> simp [hout, hempty]
    · rcases executeOne_runState hstep with ⟨hrun, -⟩ | ⟨hrun, -⟩
      · exact absurd (hrun.symm.trans ht) nofun
      · exact absurd (hr.symm.trans (hrun.symm.trans ht)) nofun

/-- Settles O45: `execute_one` keeps the program and the parameters and appends at most one digit; every other effect
but a `Load` keeps the buffer. -/
theorem programImmutableAfterLoad : Obligations.ProgramImmutableAfterLoad := by
  intro s t hstep
  cases step_effect hstep with
  | turn _ _ _ _ he =>
    obtain ⟨hprog, -, hparams, -⟩ := executeOne_frame he
    exact ⟨hparams, fun _ => ⟨hprog, executeOne_out he⟩⟩
  | stepped u rest _ _ he =>
    obtain ⟨hprog, -, hparams, -⟩ := executeOne_frame he
    have hout : u.out = s.out ∨ ∃ d, u.out = s.out ++ [d] :=
      executeOne_out (s := s.setCommands rest) he
    split <;> exact ⟨hparams, fun _ => ⟨hprog, hout⟩⟩
  | loaded p a b c rest hr hc | failedLoad p a b c rest hr hc =>
    exact ⟨rfl, fun h => absurd hc (h.resolve_left hr p a b c rest)⟩
  | haltEnd | haltOutput | idle | notLoaded | sticky | runStarted | observed =>
    exact ⟨rfl, fun _ => ⟨rfl, .inl rfl⟩⟩

/-- How `Step` settles STATE after `execute_one`: a fault stays, and without one READY follows
(40_execution_cycle R111). -/
theorem executeOne_settled {s u : State} (hi : s.isIdle) (he : executeOne s = .next u) :
    (u.runState = .faulted ∧ u.cause ≠ .none ∧ (if u.runState = .faulted then u else u.setRunState .ready) = u) ∨
    (u.runState = s.runState ∧ u.cause = s.cause ∧
      (if u.runState = .faulted then u else u.setRunState .ready) = u.setRunState .ready) := by
  rcases executeOne_runState he with ⟨hf, hc⟩ | ⟨hr, hc⟩
  · exact .inl ⟨hf, hc, if_pos hf⟩
  · exact .inr ⟨hr, hc, if_neg (hr ▸ hi.not_faulted)⟩

/-- Settles O44: each effect of a step is a transition of the table, under that row's condition. -/
theorem runStateTransitions : Obligations.RunStateTransitions := by
  intro s t hstep
  have heffect : StepEffect s t := step_effect hstep
  cases heffect with
  | haltEnd hr hb => exact .inl ⟨hr, .inl ⟨hb, rfl⟩⟩
  | haltOutput hr hb hh ho => exact .inl ⟨hr, .inr (.inl ⟨hb, hh, ho, rfl⟩)⟩
  | turn _ hr hb hh he =>
    refine .inl ⟨hr, .inr (.inr ⟨hb, hh, he, ?_⟩)⟩
    rcases executeOne_runState he with hfault | ⟨hrun, hcause⟩
    · exact .inr hfault
    · exact .inl ⟨hrun.trans hr, hcause⟩
  | idle hr hc => exact .inr (.inl ⟨hr, hc, rfl⟩)
  | loaded p a b c rest hr hc _ he =>
    exact .inr (.inr ⟨hr, _, rest, hc, rfl, .inl ⟨(evenLength_iff p).mp he, rfl⟩⟩)
  | failedLoad p a b c rest hr hc _ he =>
    have hodd : p.length % 2 = 1 := by
      have hne : ¬p.length % 2 = 0 := mt (evenLength_iff p).mpr (by simp [he])
      omega
    exact .inr (.inr ⟨hr, _, rest, hc, rfl, .inr ⟨hodd, rfl, rfl⟩⟩)
  | notLoaded cmd rest hr hc hk =>
    refine .inr (.inr ⟨by simp [hr], cmd, rest, hc, rfl, ?_⟩)
    rcases hk with rfl | ⟨h, rfl⟩ <;> exact .inl ⟨hr, rfl, rfl⟩
  | sticky cmd rest hr hc hk =>
    refine .inr (.inr ⟨by simp [hr], cmd, rest, hc, rfl, ?_⟩)
    rcases hk with rfl | ⟨h, rfl⟩ <;> exact .inr (.inl ⟨hr, rfl⟩)
  | observed cmd rest hr hc hk =>
    refine .inr (.inr ⟨hr, cmd, rest, hc, rfl, ?_⟩)
    rcases hk with rfl | ⟨f, rfl⟩ <;> rfl
  | runStarted h rest hi hc => exact .inr (.inr ⟨hi.not_running, _, rest, hc, rfl, .inr (.inr ⟨hi, rfl⟩)⟩)
  | stepped u rest hi hc he =>
    obtain ⟨-, -, -, hcommands⟩ := executeOne_frame he
    rcases executeOne_settled (s := s.setCommands rest) hi he with ⟨hf, hcause, hu⟩ | ⟨hr, hcause, hu⟩ <;> rw [hu]
    · exact .inr (.inr ⟨hi.not_running, _, rest, hc, hcommands,
        .inr (.inr ⟨hi, u, he, .inl ⟨hf, hcause, rfl⟩⟩)⟩)
    · exact .inr (.inr ⟨hi.not_running, _, rest, hc, hcommands,
        .inr (.inr ⟨hi, u, he, .inr ⟨hr, hcause, rfl⟩⟩)⟩)

end Sys2Proof.Machine
end

section
/-! PROOFS. A whole `Run` under fuel (40_execution_cycle R106, 70_reset_and_hazards R200): its turns are steps, its end
is unique, and it ends in three ways. -/

namespace Sys2Proof.Machine

theorem runLoop_of_not_running {s : State} (h : s.runState ≠ .running) (fuel : Nat) :
    runLoop fuel s = .ended s := by
  cases fuel <;> simp [runLoop, h]

theorem runLoop_succ_of_turn {s u : State} (hr : s.runState = .running) (hu : runTurn s = .next u) (fuel : Nat) :
    runLoop (fuel + 1) s = runLoop fuel u := by
  simp only [runLoop, if_pos hr, hu]

/-- A loop that ends has not begun, or goes on after its first turn with one unit of fuel less. -/
theorem runLoop_ended {fuel : Nat} {s t : State} (h : runLoop fuel s = .ended t) :
    (s.runState ≠ .running ∧ t = s) ∨
    (s.runState = .running ∧ ∃ n u, fuel = n + 1 ∧ runTurn s = .next u ∧ runLoop n u = .ended t) := by
  by_cases hr : s.runState = .running
  · cases fuel with
    | zero => simp [runLoop, hr] at h
    | succ n =>
      cases hu : runTurn s with
      | next u => exact .inr ⟨hr, n, u, rfl, rfl, (runLoop_succ_of_turn hr hu n).symm.trans h⟩
      | fault r => simp [runLoop, hr, hu] at h
      | refused r => simp [runLoop, hr, hu] at h
  · rw [runLoop_of_not_running hr] at h
    cases h
    exact .inl ⟨hr, rfl⟩

theorem core_run_succ {s u : State} (h : step s = .next u) (k : Nat) : core.run (k + 1) s = core.run k u := by
  have hcore : core.step s = .next u := h
  simp only [Host.Core.run, hcore]

/-- Settles O46, by induction on the fuel: the first turn is a step, and the steps of the loop after it follow. -/
theorem runLoopIsMachineSteps : Obligations.RunLoopIsMachineSteps := by
  intro fuel
  induction fuel with
  | zero =>
    intro s t h
    rcases runLoop_ended h with ⟨hr, rfl⟩ | ⟨-, n, u, hn, -⟩
    · exact ⟨hr, 0, le_rfl, rfl, fun j u hj => absurd hj (Nat.not_lt_zero j)⟩
    · cases hn
  | succ fuel ih =>
    intro s t h
    rcases runLoop_ended h with ⟨hr, rfl⟩ | ⟨hr, n, u, hn, hu, hend⟩
    · exact ⟨hr, 0, Nat.zero_le _, rfl, fun j u hj => absurd hj (Nat.not_lt_zero j)⟩
    · obtain rfl : fuel = n := Nat.succ.inj hn
      have hstep : step s = .next u := (step_running hr).trans hu
      obtain ⟨ht, k, hk, hrun, hbefore⟩ := ih u t hend
      refine ⟨ht, k + 1, Nat.succ_le_succ hk, (core_run_succ hstep k).trans hrun, fun j w hj hw => ?_⟩
      cases j with
      | zero =>
        cases hw
        exact hr
      | succ j => exact hbefore j w (Nat.lt_of_succ_lt_succ hj) ((core_run_succ hstep j).symm.trans hw)

/-- More fuel does not lose the end of a run. -/
theorem runLoop_ended_mono {m n : Nat} {s t : State} (h : runLoop m s = .ended t) (hmn : m ≤ n) :
    runLoop n s = .ended t := by
  induction m generalizing n s with
  | zero =>
    rcases runLoop_ended h with ⟨hr, rfl⟩ | ⟨-, k, u, hk, -⟩
    · exact runLoop_of_not_running hr n
    · cases hk
  | succ m ih =>
    rcases runLoop_ended h with ⟨hr, rfl⟩ | ⟨hr, k, u, hk, hu, hend⟩
    · exact runLoop_of_not_running hr n
    · obtain rfl : m = k := Nat.succ.inj hk
      obtain ⟨n', rfl⟩ := Nat.exists_eq_add_of_le' hmn
      rw [← Nat.add_assoc, runLoop_succ_of_turn hr hu]
      exact ih hend (Nat.le_add_left m n')

/-- Settles O47: two ends of one run are both its end under the greater fuel. -/
theorem runEndIsUnique : Obligations.RunEndIsUnique := by
  refine fun m n s t h => ⟨runLoop_ended_mono h, fun u hu => ?_⟩
  have hm : runLoop (max m n) s = .ended t := runLoop_ended_mono h (le_max_left m n)
  have hn : runLoop (max m n) s = .ended u := runLoop_ended_mono hu (le_max_right m n)
  exact RunResult.ended.inj (hn.symm.trans hm)

/-- A turn ends the run in one of three ways, or leaves RUNNING as it is (40_execution_cycle R106). -/
theorem runTurn_runState {s u : State} (hr : s.runState = .running) (h : runTurn s = .next u) :
    u.runState = .running ∨ u.final = true ∨ u.runState = .faulted := by
  rcases runTurn_cases s with ⟨-, e⟩ | ⟨-, -, -, e⟩ | ⟨-, -, e⟩ <;> rw [e] at h
  · cases h
    exact .inr (.inl rfl)
  · cases h
    exact .inr (.inl rfl)
  · rcases executeOne_runState h with ⟨hf, -⟩ | ⟨hrun, -⟩
    · exact .inr (.inr hf)
    · exact .inl (hrun.trans hr)

/-- Settles O48, by induction on the fuel: the turn that leaves RUNNING is the last one. -/
theorem runEndsInThreeWays : Obligations.RunEndsInThreeWays := by
  intro fuel
  induction fuel with
  | zero =>
    intro s t hr h
    rcases runLoop_ended h with ⟨hne, -⟩ | ⟨-, n, u, hn, -⟩
    · exact absurd hr hne
    · cases hn
  | succ fuel ih =>
    intro s t hr h
    rcases runLoop_ended h with ⟨hne, -⟩ | ⟨-, n, u, hn, hu, hend⟩
    · exact absurd hr hne
    · obtain rfl : fuel = n := Nat.succ.inj hn
      by_cases hru : u.runState = .running
      · exact ih u t hru hend
      · rw [runLoop_of_not_running hru] at hend
        cases hend
        exact (runTurn_runState hr hu).resolve_left hru

end Sys2Proof.Machine
end

section
/-! PROOFS. The placing of one instruction where the next step fetches (assumption log 13). -/

namespace Sys2Proof.Machine

/-- What `placeAt` puts before the two digits: the program up to the index, and zeros where it is shorter. -/
def placePrefix (prog : List Int) (n : Nat) : List Int := prog.take n ++ List.replicate (n - prog.length) 0

theorem placePrefix_length (prog : List Int) (n : Nat) : (placePrefix prog n).length = n := by
  rw [placePrefix, List.length_append, List.length_take, List.length_replicate]
  omega

theorem placeAt_eq (prog : List Int) (n : Nat) (op d : Int) :
    ∃ rest, placeAt prog n op d = placePrefix prog n ++ op :: d :: rest := by
  simp only [placeAt]
  split
  · exact ⟨_, rfl⟩
  · exact ⟨prog.drop (n + 2) ++ [0], by simp [placePrefix]⟩

theorem placeAt_getElem? (prog : List Int) (n : Nat) (op d : Int) :
    (placeAt prog n op d)[n]? = some op ∧ (placeAt prog n op d)[n + 1]? = some d := by
  obtain ⟨rest, hplace⟩ := placeAt_eq prog n op d
  have hlen := placePrefix_length prog n
  rw [hplace, List.getElem?_append_right hlen.le, List.getElem?_append_right (by omega), hlen]
  simp

theorem placeAt_length_even (prog : List Int) (n : Nat) (op d : Int) : (placeAt prog n op d).length % 2 = 0 := by
  simp only [placeAt]
  split
  · assumption
  · rw [List.length_append, List.length_singleton]
    omega

/-- The digits placed are the ones the next turn fetches. -/
theorem fetch_withDigits {s : State} (ho : s.oddIpFaults = false) (op d : Int) :
    fetch (s.withDigits op d) = .ok (op, d) :=
  have ⟨hop, hd⟩ := placeAt_getElem? s.prog s.ip op d
  fetch_eq_ok hop hd ho

/-- The placing clears HOFO where the buffer would stop the run. -/
theorem withDigits_no_stop (s : State) (op d : Int) :
    (s.withDigits op d).hofo = false ∨ (s.withDigits op d).out = [] := by
  by_cases h : s.out = []
  · exact .inr h
  · exact .inl (by simp [State.withDigits, (outNonempty_iff s).mpr h])

theorem withFetchWord_packed (s : State) (i : Instr) {nbits : Nat} (h : 6 ≤ nbits) :
    s.withFetchWord nbits (packed i).toNat = s.withDigits (encode i).1 (encode i).2 := by
  obtain ⟨hop, hod⟩ := packed_split i h
  rw [State.withFetchWord, hop, hod, encode]

/-- Settles O49: the packed word places the instruction's two digits, which the next turn fetches and decodes. -/
theorem placedWordRunsNext : Obligations.PlacedWordRunsNext := by
  intro i s nbits h ho
  rw [withFetchWord_packed s i h]
  have hf : fetchDecode (s.withDigits (encode i).1 (encode i).2) = .ok i :=
    fetchDecode_of_decode_ok (fetch_withDigits (oddIpFaults_eq_false ho) _ _) (decode_encode i)
  refine ⟨?_, placeAt_length_even _ _ _ _⟩
  rw [step_running_eq_executeOne rfl (ip_lt_of_fetchDecode_ok hf) (withDigits_no_stop s _ _),
    executeOne_of_fetchDecode_ok hf]

end Sys2Proof.Machine
end

section
/-! PROOFS. The STATUS word (10_state R35). -/

namespace Sys2Proof.Machine

/-- The STATUS word bit by bit. -/
theorem statusWord_getLsbD (s : State) (k : Nat) :
    s.statusWord.getLsbD k =
      if k < 3 then s.runState.code.getLsbD k
      else if k = 3 then s.hofo
      else if k < 8 then s.cause.code.getLsbD (k - 4)
      else if k = 8 then s.statusMatch
      else (decide (k = 9) && s.outNonempty) := by
  have hbits : s.statusWord.getLsbD k =
      (0#22 ++ BitVec.ofBool s.outNonempty ++ BitVec.ofBool s.statusMatch ++ s.cause.code ++ BitVec.ofBool s.hofo ++
        s.runState.code).getLsbD k := rfl
  rw [hbits]
  simp only [BitVec.getLsbD_append, BitVec.getLsbD_ofBool, BitVec.getLsbD_zero]
  grind

theorem statusWord_state (s : State) : s.statusWord.extractLsb' 0 3 = s.runState.code := by
  refine BitVec.eq_of_getLsbD_eq fun k hk => ?_
  rw [BitVec.getLsbD_extractLsb', statusWord_getLsbD, Nat.zero_add, if_pos hk]
  simp [hk]

theorem statusWord_cause (s : State) : s.statusWord.extractLsb' 4 4 = s.cause.code := by
  refine BitVec.eq_of_getLsbD_eq fun k hk => ?_
  rw [BitVec.getLsbD_extractLsb', statusWord_getLsbD, if_neg (by omega), if_neg (by omega), if_pos (by omega)]
  simp [hk]

theorem statusWord_unused (s : State) {k : Nat} (hk : 10 ≤ k) : s.statusWord.getLsbD k = false := by
  rw [statusWord_getLsbD, if_neg (by omega), if_neg (by omega), if_neg (by omega), if_neg (by omega),
    decide_eq_false (by omega), Bool.false_and]

/-- Settles O40: each field of the word at its bits, and the numbers of the two codes. -/
theorem statusWordFields : Obligations.StatusWordFields := by
  refine fun s => ⟨?state, statusWord_getLsbD s 3, ?cause, fun hheld => ?isMatch, ?nonempty,
    fun _ hk => statusWord_unused s hk⟩
  case state =>
    rw [statusWord_state]
    cases s.runState <;> rfl
  case cause =>
    rw [statusWord_cause]
    cases s.cause <;> rfl
  case isMatch => exact (statusWord_getLsbD s 8).trans (if_pos hheld)
  case nonempty => exact (Bool.eq_iff_iff.mp (statusWord_getLsbD s 9)).trans (outNonempty_iff s)

end Sys2Proof.Machine
end
